-- ==== Sys2Proof/Word.lean ====
section
/-! DEFINITION. The word types of the core. Rules R7, R8 (00_scope.md): every register cell, memory cell and
instruction word is 8 bits wide; PC, AR and every instruction address field are 4 bits wide. -/

namespace Sys2Proof

/-- An 8-bit register cell, memory cell or instruction word (R7, R90). -/
abbrev Byte := BitVec 8

/-- A 4-bit opcode or operand field (R91). -/
abbrev Nibble := BitVec 4

/-- A 4-bit memory address: PC, AR, an address operand (R8, R24, R32, R93). -/
abbrev Addr := BitVec 4

end Sys2Proof
end

