-- ==== Sys2Proof/Config.lean ====
section
/-! DEFINITION. The fixed names of the instruction set, and the parameters of rule R11 (00_scope.md). `Params` holds all
five, and the machine with any of their values can be stepped (`stepIn`, Sys2Proof/Machine/Parametric.lean). The
machine of the host's interface has the defaults of R11: `Config.params` of Sys2Proof/Decode.lean, made of the three
constants below and of `opcodeMap` and `regCode`, which stand beside the decoder. -/

namespace Sys2Proof

/-- The sixteen mnemonics of R96, in the order the source lists them. -/
inductive Mnemonic where
  | loadA | loadB | loadC | loadD
  | storeA | storeB | storeC | storeD
  | add | sub
  | jump | jumpNeg | jumpZro | jumpAbv | jumpBlw
  | halt
  deriving DecidableEq, Repr

/-- The sixteen mnemonics as a list, in the order of R96. -/
def Mnemonic.all : List Mnemonic :=
  [.loadA, .loadB, .loadC, .loadD, .storeA, .storeB, .storeC, .storeD,
   .add, .sub, .jump, .jumpNeg, .jumpZro, .jumpAbv, .jumpBlw, .halt]

/-- The opcode classes of R97. The class fixes the operand format. -/
inductive OpClass where
  | load | store | arithmetic | jump | halt
  deriving DecidableEq, Repr

/-- R97: the class of each mnemonic. -/
def Mnemonic.opClass : Mnemonic → OpClass
  | .loadA | .loadB | .loadC | .loadD => .load
  | .storeA | .storeB | .storeC | .storeD => .store
  | .add | .sub => .arithmetic
  | .jump | .jumpNeg | .jumpZro | .jumpAbv | .jumpBlw => .jump
  | .halt => .halt

/-- The four cells of the register file (R9, R20). -/
inductive Reg where
  | a | b | c | d
  deriving DecidableEq, Repr

/-- The four registers as a list, in the order of R9. -/
def Reg.all : List Reg := [.a, .b, .c, .d]

/-- The values of parameter `PC_INC_AT_15` (R11, R26). -/
inductive PcIncAt15 where
  | wrap   -- 15 + 1 = 0
  | stuck  -- no step from an EXECUTE that would compute 15 + 1
  deriving DecidableEq, Repr

/-- The values of parameter `RESERVED_JUMP_MODE` (R11, R204, R205). -/
inductive ReservedJumpMode where
  | nop     -- PC advances, nothing else
  | refuse  -- the step has no meaning
  deriving DecidableEq, Repr

/-- `PC_INC_AT_15`: the default of R11, `wrap`. DESIGN CHOICE of the spec (D5), unsafe: log entry 1. -/
def Config.pcIncAt15 : PcIncAt15 := .wrap

/-- `RESERVED_JUMP_MODE`: the default of R11, `nop`. DESIGN CHOICE of the spec (D9), unsafe: log entry 2. -/
def Config.reservedJumpMode : ReservedJumpMode := .nop

/-- `CYCLE_WIDTH`: the default of R11, 32 bits. DESIGN CHOICE of the spec (D10), unsafe: log entry 4. -/
def Config.cycleWidth : Nat := 32

/-- R11: the five named parameters a model takes. -/
structure Params where
  /-- `OPCODE_MAP`, from mnemonic to code; a bijection (`Params.wellFormed`) -/
  opcodeMap : Mnemonic → Nibble
  /-- `REG_CODE`, from register to code; a bijection (`Params.wellFormed`) -/
  regCode : Reg → BitVec 2
  /-- `PC_INC_AT_15` -/
  pcIncAt15 : PcIncAt15
  /-- `RESERVED_JUMP_MODE` -/
  reservedJumpMode : ReservedJumpMode
  /-- `CYCLE_WIDTH`, in bits; positive (`Params.wellFormed`) -/
  cycleWidth : Nat

end Sys2Proof
end

