-- ==== Sys2Proof/Syntax.lean ====
section
/-! DEFINITION. The instructions: one constructor for each row of spec/opcode_table.json (R96, 30_encoding.md). -/

namespace Sys2Proof

/-- The sixteen instructions with their operands. Format M carries a 4-bit address or target (R93), format R two
registers, destination and first source before second source (R92), and format H the operand nibble that execution
never reads (R94), kept so that no bit of a word is lost. -/
inductive Instr where
  | loadA (addr : Addr)
  | loadB (addr : Addr)
  | loadC (addr : Addr)
  | loadD (addr : Addr)
  | storeA (addr : Addr)
  | storeB (addr : Addr)
  | storeC (addr : Addr)
  | storeD (addr : Addr)
  | add (reg1 reg2 : Reg)
  | sub (reg1 reg2 : Reg)
  | jump (addr : Addr)
  | jumpNeg (addr : Addr)
  | jumpZro (addr : Addr)
  | jumpAbv (addr : Addr)
  | jumpBlw (addr : Addr)
  | halt (unused : Nibble)
  deriving DecidableEq, Repr

/-- The mnemonic of an instruction. -/
def Instr.mnemonic : Instr → Mnemonic
  | .loadA _ => .loadA
  | .loadB _ => .loadB
  | .loadC _ => .loadC
  | .loadD _ => .loadD
  | .storeA _ => .storeA
  | .storeB _ => .storeB
  | .storeC _ => .storeC
  | .storeD _ => .storeD
  | .add _ _ => .add
  | .sub _ _ => .sub
  | .jump _ => .jump
  | .jumpNeg _ => .jumpNeg
  | .jumpZro _ => .jumpZro
  | .jumpAbv _ => .jumpAbv
  | .jumpBlw _ => .jumpBlw
  | .halt _ => .halt

end Sys2Proof
end

