-- ==== Sys2Proof/WellFormed.lean ====
section
/-! DEFINITION. Well-formedness. An instruction needs no check: R99 (30_encoding.md) says that format R accepts
all 16 operand values, format M all 16 addresses and that format H ignores its operand, and the types of `Instr`
carry exactly those ranges. What can be ill-formed is the triple of R33 and R145 that DECODE forms from a word, and a
choice of the parameters of R11. -/

namespace Sys2Proof

/-- R99: every instruction whose fields have their types is well formed. -/
def Instr.wellFormed : Instr → Bool
  | .loadA _ | .loadB _ | .loadC _ | .loadD _ => true
  | .storeA _ | .storeB _ | .storeC _ | .storeD _ => true
  | .add _ _ | .sub _ _ => true
  | .jump _ | .jumpNeg _ | .jumpZro _ | .jumpAbv _ | .jumpBlw _ => true
  | .halt _ => true

/-- R33, R145: the contents {mnemonic, opcode, operand} of the decode latch. -/
structure Decoded where
  mnemonic : Mnemonic
  opcode   : Nibble
  operand  : Nibble
  deriving DecidableEq, Repr

/-- R145: the opcode of a decoded word is the one that the map gives its mnemonic. -/
def Decoded.wellFormed (map : Mnemonic → Nibble) (d : Decoded) : Bool :=
  map d.mnemonic == d.opcode

/-- R11: `OPCODE_MAP` and `REG_CODE` are bijections, sixteen different opcodes and four different register codes, and
`CYCLE_WIDTH` is positive. -/
def Params.wellFormed (p : Params) : Bool :=
  decide (Mnemonic.all.map p.opcodeMap).Nodup && decide (Reg.all.map p.regCode).Nodup && decide (0 < p.cycleWidth)

end Sys2Proof
end

