-- ==== Sys2Proof/Decode.lean ====
section
/-! DEFINITION. Fields, opcode map, register codes, decoder and encoder (R90 to R101, 30_encoding.md). -/

namespace Sys2Proof

/-- R91: the opcode is bits 7:4. DESIGN CHOICE of the spec (D2): log entry 3. -/
def opcodeField (w : Byte) : Nibble := w.extractLsb' 4 4

/-- R91, R93: the operand, an address or a register pair, is bits 3:0. -/
def operandField (w : Byte) : Nibble := w.extractLsb' 0 4

/-- R92: reg1, destination and first source, is bits 3:2. DESIGN CHOICE of the spec (D3): log entry 3. -/
def reg1Field (operand : Nibble) : BitVec 2 := operand.extractLsb' 2 2

/-- R92: reg2, the second source, is bits 1:0. -/
def reg2Field (operand : Nibble) : BitVec 2 := operand.extractLsb' 0 2

/-- `OPCODE_MAP` (R11, R96): the default of the spec. DESIGN CHOICE of the spec (D1): log entry 3. -/
def opcodeMap : Mnemonic → Nibble
  | .loadA => 0x0
  | .loadB => 0x1
  | .loadC => 0x2
  | .loadD => 0x3
  | .storeA => 0x4
  | .storeB => 0x5
  | .storeC => 0x6
  | .storeD => 0x7
  | .add => 0x8
  | .sub => 0x9
  | .jump => 0xA
  | .jumpNeg => 0xB
  | .jumpZro => 0xC
  | .jumpAbv => 0xD
  | .jumpBlw => 0xE
  | .halt => 0xF

/-- `REG_CODE` (R11, R98): the default of the spec. DESIGN CHOICE of the spec (D4): log entry 3. -/
def regCode : Reg → BitVec 2
  | .a => 0b00
  | .b => 0b01
  | .c => 0b10
  | .d => 0b11

/-- R11: the defaults of the five parameters: the machine of the host's interface. -/
def Config.params : Params where
  opcodeMap := opcodeMap
  regCode := regCode
  pcIncAt15 := Config.pcIncAt15
  reservedJumpMode := Config.reservedJumpMode
  cycleWidth := Config.cycleWidth

/-- `OPCODE_MAP⁻¹` (R112, R145): the mnemonic that has an opcode; none where no mnemonic has it (I2). -/
def mnemonicOfIn (p : Params) (op : Nibble) : Option Mnemonic :=
  Mnemonic.all.find? fun m => p.opcodeMap m == op

/-- `OPCODE_MAP⁻¹` for the default map. -/
def mnemonicOf (op : Nibble) : Option Mnemonic := mnemonicOfIn Config.params op

/-- `REG_CODE⁻¹` (R13, R112): the cell a 2-bit code selects. The code map is a bijection, so the last case is D. -/
def regOfIn (p : Params) (code : BitVec 2) : Reg :=
  if code = p.regCode .a then .a
  else if code = p.regCode .b then .b
  else if code = p.regCode .c then .c
  else .d

/-- The instruction with a given mnemonic and operand nibble, the operand read in the format of R92, R93 or R94. -/
def Instr.ofPartsIn (p : Params) (m : Mnemonic) (operand : Nibble) : Instr :=
  match m with
  | .loadA => .loadA operand
  | .loadB => .loadB operand
  | .loadC => .loadC operand
  | .loadD => .loadD operand
  | .storeA => .storeA operand
  | .storeB => .storeB operand
  | .storeC => .storeC operand
  | .storeD => .storeD operand
  | .add => .add (regOfIn p (reg1Field operand)) (regOfIn p (reg2Field operand))
  | .sub => .sub (regOfIn p (reg1Field operand)) (regOfIn p (reg2Field operand))
  | .jump => .jump operand
  | .jumpNeg => .jumpNeg operand
  | .jumpZro => .jumpZro operand
  | .jumpAbv => .jumpAbv operand
  | .jumpBlw => .jumpBlw operand
  | .halt => .halt operand

/-- The same under the default register codes. -/
def Instr.ofParts (m : Mnemonic) (operand : Nibble) : Instr := Instr.ofPartsIn Config.params m operand

/-- Why a byte does not decode: no mnemonic has its opcode (R145, R233). Never under the default map (R99). -/
inductive DecodeError where
  | unknownOpcode (opcode : Nibble)
  deriving DecidableEq, Repr

/-- R145: the triple {mnemonic, opcode, operand} of a word under a lookup of opcodes; none where it has none. -/
def parseWith (look : Nibble → Option Mnemonic) (w : Byte) : Option Decoded :=
  (look (opcodeField w)).map fun m => ⟨m, opcodeField w, operandField w⟩

/-- R91 to R99: the instruction a byte stands for. -/
def decodeIn (p : Params) (w : Byte) : Except DecodeError Instr :=
  match mnemonicOfIn p (opcodeField w) with
  | some m => .ok (Instr.ofPartsIn p m (operandField w))
  | none => .error (.unknownOpcode (opcodeField w))

/-- The decoder under the default parameters. -/
def decode (w : Byte) : Except DecodeError Instr := decodeIn Config.params w

/-- R92: the operand nibble of a register pair, reg1 in its high half. -/
def regPairIn (p : Params) (reg1 reg2 : Reg) : Nibble := p.regCode reg1 ++ p.regCode reg2

/-- The operand nibble of an instruction (R92, R93, R94). -/
def Instr.operandIn (p : Params) : Instr → Nibble
  | .loadA addr | .loadB addr | .loadC addr | .loadD addr => addr
  | .storeA addr | .storeB addr | .storeC addr | .storeD addr => addr
  | .add reg1 reg2 | .sub reg1 reg2 => regPairIn p reg1 reg2
  | .jump addr | .jumpNeg addr | .jumpZro addr | .jumpAbv addr | .jumpBlw addr => addr
  | .halt unused => unused

/-- The operand nibble under the default register codes. -/
def Instr.operand (i : Instr) : Nibble := i.operandIn Config.params

/-- R91: an opcode nibble and an operand nibble joined to a word, the opcode in the high half. -/
def wordOf (opcode operand : Nibble) : Byte := opcode ++ operand

/-- R96: the word of an instruction. -/
def encodeIn (p : Params) (i : Instr) : Byte := wordOf (p.opcodeMap i.mnemonic) (i.operandIn p)

/-- The encoder under the default parameters. -/
def encode (i : Instr) : Byte := encodeIn Config.params i

/-- The first byte of an instruction given as a number with `nbits` bits, every bit above them zero. The instruction
is one byte (R90), so its bits are bits 7:0 of the number. -/
def tableByte (nbits w : Nat) : Byte := BitVec.ofNat 8 (w % 2 ^ nbits)

/-- The instruction the decoder reads from a word numbered as spec/opcode_table.json numbers its bits. -/
def decodeTableWord (nbits w : Nat) : Option Instr := (decode (tableByte nbits w)).toOption

end Sys2Proof
end

