-- ==== Sys2Proof/Machine/State.lean ====
section
/-! DEFINITION. The state of the core with the memory attached to it (10_state.md, 20_memory.md), the reasons a step
stops, and the state after reset (70_reset_and_hazards.md R260). -/

namespace Sys2Proof.Machine

/-- R34: the stage register. It names the stage the next step performs. -/
inductive Stage where
  | idle | fetch | decode | execute | halt
  deriving DecidableEq, Repr

/-- R60: the memory, as (address, byte) pairs with strictly rising addresses below 16 and no zero byte. An address
that is not listed holds 0x00, what `Memory.reset` leaves (R65). -/
abbrev Memory := List Host.Cell

/-- R20 to R38: every piece of state of the core, the `more` output that R42 and R260 give it, and the 16-byte memory
it owns while it runs (R60). -/
structure State where
  /-- register cell A (R20) -/
  a : Byte
  /-- register cell B (R20) -/
  b : Byte
  /-- register cell C (R20) -/
  c : Byte
  /-- register cell D (R20) -/
  d : Byte
  /-- program counter (R24) -/
  pc : Addr
  /-- overflow flag V (R28) -/
  v : Bool
  /-- zero flag Z (R28) -/
  z : Bool
  /-- negative flag N (R28) -/
  n : Bool
  /-- instruction register (R31) -/
  ir : Byte
  /-- address register (R32) -/
  ar : Addr
  /-- decode latch (R33); `none` is the empty latch that reset leaves -/
  dec : Option Decoded
  /-- stage register (R34) -/
  stage : Stage
  /-- sticky indicator of an InvalidInstructionFault (R36) -/
  fault : Bool
  /-- cycle counter (R37), unsigned, below 2^`CYCLE_WIDTH`; a number, so that the width stays a parameter (R11) -/
  cycles : Nat
  /-- the Boolean result of the last step; 1 after reset (R42, R260) -/
  more : Bool
  /-- the memory (R60) -/
  mem : Memory
  deriving DecidableEq, Repr

/-- Where a step stops because the spec gives it no successor. -/
inductive Fault where
  /-- An EXECUTE step that evaluates `pc_inc(15)` under `PC_INC_AT_15` = stuck (R26): the step relation has no
  transition, and nothing is written. Raised by `retireNextIn`; never under the default `wrap`. Safe. -/
  | pcIncStuck
  deriving DecidableEq, Repr

/-- Where the model gives a step no meaning. -/
inductive Refusal where
  /-- An instruction that has no meaning in this model yet. Raised by refused arms of `exec` only; no arm is one.
  Safe. -/
  | notModelled (mnemonic : String)
  /-- JUMP_ABV or JUMP_BLW under `RESERVED_JUMP_MODE` = refuse (R204, R205): the step has no meaning. Raised by
  `reservedJumpIn`; never under the default `nop`. Safe. -/
  | reservedJump (m : Mnemonic)
  /-- A step in stage EXECUTE with an empty decode latch. R33 says that no EXECUTE can read the latch before a DECODE
  has written it, so no run from reset reaches it. Raised by `step` and `stepIn`. Safe: log entry 6. -/
  | decodeLatchEmpty
  deriving DecidableEq, Repr

/-- What a step or a meaning answers. -/
abbrev Result := Host.Outcome State Fault Refusal

/-- R23, R27, R30 to R37, R65, R260: the state right after reset, with the all-zero memory that session creation and
`Memory.reset` leave. -/
def State.reset : State where
  a := 0x00
  b := 0x00
  c := 0x00
  d := 0x00
  pc := 0
  v := false
  z := false
  n := false
  ir := 0x00
  ar := 0
  dec := none
  stage := .idle
  fault := false
  cycles := 0
  more := true
  mem := []

end Sys2Proof.Machine
end

