-- ==== Sys2Proof/Machine/Ops.lean ====
section
/-! DEFINITION. The named operations over memory, registers, PC and stage that the meanings share, with the core's one
fault and CPU reset beside them. -/

namespace Sys2Proof.Machine

/-! ### Memory (20_memory.md) -/

/-- R8, R60: the number of memory cells. -/
def Memory.capacity : Nat := 16

/-- R65: what an unlisted cell reads as, the byte `Memory.reset` leaves. -/
def Memory.unlisted : Byte := 0x00

/-- The canonical form, from a lowest allowed address on: rising addresses below 16, no byte equal to the unlisted
one. -/
def Memory.wfFrom (lo : Nat) : Memory → Bool
  | [] => true
  | (x, v) :: rest =>
    decide (lo ≤ x) && decide (x < Memory.capacity) && decide (v ≠ Memory.unlisted)
      && Memory.wfFrom (x + 1) rest

/-- The canonical form of a memory. -/
def Memory.wf (m : Memory) : Bool := Memory.wfFrom 0 m

/-- The byte a cell holds. -/
def Memory.read : Memory → Nat → Byte
  | [], _ => Memory.unlisted
  | (x, v) :: rest, addr => if addr = x then v else Memory.read rest addr

/-- The memory with one cell written, in canonical form. -/
def Memory.write : Memory → Nat → Byte → Memory
  | [], addr, v => if v = Memory.unlisted then [] else [(addr, v)]
  | (x, w) :: rest, addr, v =>
    if addr < x then
      if v = Memory.unlisted then (x, w) :: rest else (addr, v) :: (x, w) :: rest
    else if addr = x then
      if v = Memory.unlisted then rest else (x, v) :: rest
    else (x, w) :: Memory.write rest addr v

/-- R232: the event MemoryBoundsFault(addr). It is logged, never raised to the caller, and no core state records
it. -/
structure MemoryBoundsFault where
  addr : Int
  deriving DecidableEq, Repr

/-- R61: `MemRead(addr)`, the byte and the bounds fault it signals, if any. The pseudocode tests `0 <= addr`, so a
host-side address is any integer (DEDUCED, log entry 14). -/
def memRead (m : Memory) : Int → Byte × Option MemoryBoundsFault
  | .ofNat addr => if addr < Memory.capacity then (m.read addr, none) else (0x00, some ⟨.ofNat addr⟩)
  | .negSucc k => (0x00, some ⟨.negSucc k⟩)

/-- R16, R60, R62: an integer masked to 8 bits, `v mod 256` with the non-negative remainder. -/
def maskByte (v : Int) : Byte := BitVec.ofInt 8 (v % 256)

/-- R62: `MemWrite(addr, v)`, the memory and the bounds fault it signals, if any. Address and value are integers
(DEDUCED, log entry 14). -/
def memWrite (m : Memory) (addr v : Int) : Memory × Option MemoryBoundsFault :=
  match addr with
  | .ofNat x => if x < Memory.capacity then (m.write x (maskByte v), none) else (m, some ⟨.ofNat x⟩)
  | .negSucc k => (m, some ⟨.negSucc k⟩)

/-- R65: `Memory.reset()`. -/
def Memory.reset : Memory := []

/-- Bytes written one after another from a start address on; those past the last cell are dropped (R64). -/
def Memory.fill (m : Memory) (start : Nat) : List Int → Memory
  | [] => m
  | v :: vs =>
    Memory.fill (if start < Memory.capacity then m.write start (maskByte v) else m) (start + 1) vs

/-- R64: `Memory.load(bytes)`: every cell cleared, then `min(len, 16)` bytes copied from address 0 on. -/
def Memory.load (_old : Memory) (bytes : List Int) : Memory := Memory.fill Memory.reset 0 bytes

/-- R66: `Memory.snapshot()`, 16 bytes with index i holding cell i. -/
def Memory.snapshot (m : Memory) : List Byte := (List.range Memory.capacity).map m.read

/-! ### Register file (R13, R20) -/

/-- `x[r]` as a read. -/
def getReg (r : Reg) (s : State) : Byte :=
  match r with
  | .a => s.a
  | .b => s.b
  | .c => s.c
  | .d => s.d

/-- `x[r] <- v`. -/
def setReg (r : Reg) (v : Byte) (s : State) : State :=
  match r with
  | .a => { s with a := v }
  | .b => { s with b := v }
  | .c => { s with c := v }
  | .d => { s with d := v }

/-! ### PC and the end of an EXECUTE step -/

/-- R26: `pc_inc(p)` under each value of `PC_INC_AT_15`; `none` is "stuck (no step)". -/
def pcInc (mode : PcIncAt15) (p : Addr) : Option Addr :=
  match mode with
  | .wrap => some (p + 1)
  | .stuck => if p = 15 then none else some (p + 1)

/-- R37: the cycle counter after one more EXECUTE step. -/
def nextCycles (p : Params) (s : State) : Nat := (s.cycles + 1) % 2 ^ p.cycleWidth

/-- R147: what follows the mnemonic's own rule in the EXECUTE step of an instruction other than HALT. -/
def retireIn (p : Params) (s : State) : State :=
  { s with cycles := nextCycles p s, stage := .fetch, more := true }

/-- The end of an EXECUTE step that advances PC by `pc_inc` (R25, R26). Where `pc_inc` is stuck, the step does not take
place and none of its writes happen. The default of the mode is log entry 1. -/
def retireNextIn (p : Params) (s : State) : Result :=
  match pcInc p.pcIncAt15 s.pc with
  | some pc' => .next (retireIn p { s with pc := pc' })
  | none => .fault .pcIncStuck

/-- The end of an EXECUTE step that sets PC to a target (R200, R201). -/
def retireAtIn (p : Params) (target : Addr) (s : State) : Result := .next (retireIn p { s with pc := target })

/-- R147, R220: the end of the EXECUTE step of HALT: the stage becomes HALT, PC stays, the counter advances, and the
step returns false. -/
def retireHaltIn (p : Params) (s : State) : State :=
  { s with cycles := nextCycles p s, stage := .halt, more := false }

/-! ### The core's fault, and CPU reset -/

/-- R146, R231: InvalidInstructionFault. It is the only event of the core that resembles an exception: `fault` is set,
the stage becomes HALT, the step returns false, and nothing is saved (R237). Only CPU reset leaves it (R238). -/
def raiseInvalidInstruction (s : State) : State :=
  { s with fault := true, stage := .halt, more := false }

/-- R260, R261: `CPU.reset()`: every piece of core state takes its reset value; memory does not change. -/
def cpuReset (s : State) : State := { State.reset with mem := s.mem }

end Sys2Proof.Machine
end

