-- ==== Sys2Proof/Machine/Flags.lean ====
section
/-! DEFINITION. The ALU and the flags V, Z and N (42_arithmetic.md R180 to R183). -/

namespace Sys2Proof.Machine

/-- R15: the 8-bit pattern read as a two's-complement integer. -/
def s8 (v : Byte) : Int := if v.toNat < 128 then v.toNat else v.toNat - 256

/-- R181: the two operations of the ALU. -/
inductive AluOp where
  | add | sub
  deriving DecidableEq, Repr

/-- R181: what the ALU returns. -/
structure AluResult where
  r : Byte
  v : Bool
  z : Bool
  n : Bool
  deriving DecidableEq, Repr

/-- R181: the exact, unbounded sum or difference. -/
def aluExact (op : AluOp) (p q : Byte) : Int :=
  match op with
  | .add => s8 p + s8 q
  | .sub => s8 p - s8 q

/-- R181: the exact result brought back into [-128, 127] by one correction of 256. -/
def aluWrap (t : Int) : Int :=
  if t > 127 then t - 256 else if t < -128 then t + 256 else t

/-- R181: the ALU function. -/
def alu (op : AluOp) (p q : Byte) : AluResult :=
  let exact := aluExact op p q
  let t := aluWrap exact
  { r := BitVec.ofInt 8 (t % 256)
    v := decide (exact < -128) || decide (exact > 127)
    z := decide (t = 0)
    n := decide (t < 0) }

/-- R183: the flag write of ADD and SUB: all three flags, each set or cleared. -/
def setFlags (res : AluResult) (s : State) : State := { s with v := res.v, z := res.z, n := res.n }

end Sys2Proof.Machine
end

