-- ==== Sys2Proof/Machine/Operands.lean ====
section
/-! DEFINITION. The operand forms and the data paths of the EXECUTE step: the address form of LOAD and STORE with the
address and data multiplexers (R93, R95, R143, R144), the register pair of ADD and SUB (R92, R180), the jump target
(R200). -/

namespace Sys2Proof.Machine

/-- R143: an address placed on the memory address is what AR holds after the step. -/
def placeAddress (addr : Addr) (s : State) : State := { s with ar := addr }

/-- R144, R170 to R173: `ar <- addr; x[r] <- byte`, the byte being the one on the read data path. -/
def loadFrom (r : Reg) (addr : Addr) (rdata : Byte) (s : State) : State := setReg r rdata (placeAddress addr s)

/-- R170 to R173: `ar <- addr; x[r] <- MemRead(addr)`. The core's address is 4-bit, so the bounds-fault branch of
`memRead` is never taken (R63). -/
def loadOperand (r : Reg) (addr : Addr) (s : State) : State := loadFrom r addr (memRead s.mem addr.toNat).1 s

/-- R174 to R177: `ar <- addr; MemWrite(addr, x[r])`. -/
def storeOperand (r : Reg) (addr : Addr) (s : State) : State :=
  { placeAddress addr s with mem := (memWrite s.mem addr.toNat (getReg r s).toNat).1 }

/-- R180, R184, R185: the ALU applied to `x[reg1]` and `x[reg2]` as they stand at the start of the step; the result
goes to `x[reg1]`, and all three flags are written. -/
def aluOperands (op : AluOp) (reg1 reg2 : Reg) (s : State) : State :=
  let res := alu op (getReg reg1 s) (getReg reg2 s)
  setFlags res (setReg reg1 res.r s)

/-- R202, R203: a jump taken on a condition, else PC advances. -/
def jumpIfIn (p : Params) (cond : Bool) (target : Addr) (s : State) : Result :=
  if cond then retireAtIn p target s else retireNextIn p s

/-- R204, R205: a reserved jump under the value of `RESERVED_JUMP_MODE`. The default of the mode is log entry 2. -/
def reservedJumpIn (p : Params) (m : Mnemonic) (s : State) : Result :=
  match p.reservedJumpMode with
  | .nop => retireNextIn p s
  | .refuse => .refused (.reservedJump m)

end Sys2Proof.Machine
end

