-- ==== Sys2Proof/Machine/Arithmetic.lean ====
section
/-! DEFINITION. The arithmetic instructions (42_arithmetic.md R184, R185). Each meaning is given for any values of the
parameters of R11 (`…In p`), and then for the machine's defaults. -/

namespace Sys2Proof.Machine

/-- R184: ADD reg1,reg2. -/
def execAddIn (p : Params) (reg1 reg2 : Reg) (s : State) : Result := retireNextIn p (aluOperands .add reg1 reg2 s)

/-- R184: ADD reg1,reg2, under the defaults of R11. -/
def execAdd (reg1 reg2 : Reg) (s : State) : Result := execAddIn Config.params reg1 reg2 s

/-- R185: SUB reg1,reg2. -/
def execSubIn (p : Params) (reg1 reg2 : Reg) (s : State) : Result := retireNextIn p (aluOperands .sub reg1 reg2 s)

/-- R185: SUB reg1,reg2, under the defaults of R11. -/
def execSub (reg1 reg2 : Reg) (s : State) : Result := execSubIn Config.params reg1 reg2 s

end Sys2Proof.Machine
end

