-- ==== Sys2Proof/Machine/ControlTransfer.lean ====
section
/-! DEFINITION. The control transfer instructions (43_control_transfer.md R200 to R206). Each meaning is given for any
values of the parameters of R11 (`…In p`), and then for the machine's defaults. -/

namespace Sys2Proof.Machine

/-- R201: JUMP addr. PC takes the target and is not auto-incremented. -/
def execJumpIn (p : Params) (addr : Addr) (s : State) : Result := retireAtIn p addr s

/-- R201: JUMP addr, under the defaults of R11. -/
def execJump (addr : Addr) (s : State) : Result := execJumpIn Config.params addr s

/-- R202: JUMP_NEG addr. It is taken when N is 1. -/
def execJumpNegIn (p : Params) (addr : Addr) (s : State) : Result := jumpIfIn p s.n addr s

/-- R202: JUMP_NEG addr, under the defaults of R11. -/
def execJumpNeg (addr : Addr) (s : State) : Result := execJumpNegIn Config.params addr s

/-- R203: JUMP_ZRO addr. It is taken when Z is 1. -/
def execJumpZroIn (p : Params) (addr : Addr) (s : State) : Result := jumpIfIn p s.z addr s

/-- R203: JUMP_ZRO addr, under the defaults of R11. -/
def execJumpZro (addr : Addr) (s : State) : Result := execJumpZroIn Config.params addr s

/-- R204: JUMP_ABV. The address is not used; under the mode nop only PC advances (log entry 2). -/
def execJumpAbvIn (p : Params) (_addr : Addr) (s : State) : Result := reservedJumpIn p .jumpAbv s

/-- R204: JUMP_ABV, under the defaults of R11. -/
def execJumpAbv (addr : Addr) (s : State) : Result := execJumpAbvIn Config.params addr s

/-- R205: JUMP_BLW. As JUMP_ABV (log entry 2). -/
def execJumpBlwIn (p : Params) (_addr : Addr) (s : State) : Result := reservedJumpIn p .jumpBlw s

/-- R205: JUMP_BLW, under the defaults of R11. -/
def execJumpBlw (addr : Addr) (s : State) : Result := execJumpBlwIn Config.params addr s

end Sys2Proof.Machine
end

