-- ==== Sys2Proof/Machine/LoadStore.lean ====
section
/-! DEFINITION. The load and store instructions (41_load_store.md R170 to R177). Each meaning is given for any values
of the parameters of R11 (`…In p`), and then for the machine's defaults. -/

namespace Sys2Proof.Machine

/-- R170: LOAD_A addr. The byte at addr is copied to A unchanged; AR takes addr; PC advances; no flag
changes. -/
def execLoadAIn (p : Params) (addr : Addr) (s : State) : Result := retireNextIn p (loadOperand .a addr s)

/-- R170: LOAD_A addr, under the defaults of R11. -/
def execLoadA (addr : Addr) (s : State) : Result := execLoadAIn Config.params addr s

/-- R171: LOAD_B addr. The byte at addr is copied to B unchanged; AR takes addr; PC advances; no flag
changes. -/
def execLoadBIn (p : Params) (addr : Addr) (s : State) : Result := retireNextIn p (loadOperand .b addr s)

/-- R171: LOAD_B addr, under the defaults of R11. -/
def execLoadB (addr : Addr) (s : State) : Result := execLoadBIn Config.params addr s

/-- R172: LOAD_C addr. The byte at addr is copied to C unchanged; AR takes addr; PC advances; no flag
changes. -/
def execLoadCIn (p : Params) (addr : Addr) (s : State) : Result := retireNextIn p (loadOperand .c addr s)

/-- R172: LOAD_C addr, under the defaults of R11. -/
def execLoadC (addr : Addr) (s : State) : Result := execLoadCIn Config.params addr s

/-- R173: LOAD_D addr. The byte at addr is copied to D unchanged; AR takes addr; PC advances; no flag
changes. -/
def execLoadDIn (p : Params) (addr : Addr) (s : State) : Result := retireNextIn p (loadOperand .d addr s)

/-- R173: LOAD_D addr, under the defaults of R11. -/
def execLoadD (addr : Addr) (s : State) : Result := execLoadDIn Config.params addr s

/-- R174: STORE_A addr. A is copied to the byte at addr; AR takes addr; PC advances; no flag changes. -/
def execStoreAIn (p : Params) (addr : Addr) (s : State) : Result := retireNextIn p (storeOperand .a addr s)

/-- R174: STORE_A addr, under the defaults of R11. -/
def execStoreA (addr : Addr) (s : State) : Result := execStoreAIn Config.params addr s

/-- R175: STORE_B addr. B is copied to the byte at addr; AR takes addr; PC advances; no flag changes. -/
def execStoreBIn (p : Params) (addr : Addr) (s : State) : Result := retireNextIn p (storeOperand .b addr s)

/-- R175: STORE_B addr, under the defaults of R11. -/
def execStoreB (addr : Addr) (s : State) : Result := execStoreBIn Config.params addr s

/-- R176: STORE_C addr. C is copied to the byte at addr; AR takes addr; PC advances; no flag changes. -/
def execStoreCIn (p : Params) (addr : Addr) (s : State) : Result := retireNextIn p (storeOperand .c addr s)

/-- R176: STORE_C addr, under the defaults of R11. -/
def execStoreC (addr : Addr) (s : State) : Result := execStoreCIn Config.params addr s

/-- R177: STORE_D addr. D is copied to the byte at addr; AR takes addr; PC advances; no flag changes. -/
def execStoreDIn (p : Params) (addr : Addr) (s : State) : Result := retireNextIn p (storeOperand .d addr s)

/-- R177: STORE_D addr, under the defaults of R11. -/
def execStoreD (addr : Addr) (s : State) : Result := execStoreDIn Config.params addr s

end Sys2Proof.Machine
end

