-- ==== Sys2Proof/Machine/System.lean ====
section
/-! DEFINITION. The system instruction (44_system.md R220, R221). Each meaning is given for any values of the
parameters of R11 (`…In p`), and then for the machine's defaults. -/

namespace Sys2Proof.Machine

/-- R220, R94: HALT. The operand nibble is never read. -/
def execHaltIn (p : Params) (_unused : Nibble) (s : State) : Result := .next (retireHaltIn p s)

/-- R220, R94: HALT, under the defaults of R11. -/
def execHalt (unused : Nibble) (s : State) : Result := execHaltIn Config.params unused s

end Sys2Proof.Machine
end

