-- ==== Sys2Proof/Machine/Dispatch.lean ====
section
/-! DEFINITION. R147 (40_stage_machine.md): the EXECUTE step dispatches on the decoded instruction. Each meaning is the
whole EXECUTE step of its instruction: the mnemonic's own rule, the cycle count and the stage change. -/

namespace Sys2Proof.Machine

def exec (i : Instr) (s : State) : Host.Outcome State Fault Refusal :=
  match i with
  | .loadA addr => Sys2Proof.Machine.execLoadA addr s
  | .loadB addr => Sys2Proof.Machine.execLoadB addr s
  | .loadC addr => Sys2Proof.Machine.execLoadC addr s
  | .loadD addr => Sys2Proof.Machine.execLoadD addr s
  | .storeA addr => Sys2Proof.Machine.execStoreA addr s
  | .storeB addr => Sys2Proof.Machine.execStoreB addr s
  | .storeC addr => Sys2Proof.Machine.execStoreC addr s
  | .storeD addr => Sys2Proof.Machine.execStoreD addr s
  | .add reg1 reg2 => Sys2Proof.Machine.execAdd reg1 reg2 s
  | .sub reg1 reg2 => Sys2Proof.Machine.execSub reg1 reg2 s
  | .jump addr => Sys2Proof.Machine.execJump addr s
  | .jumpNeg addr => Sys2Proof.Machine.execJumpNeg addr s
  | .jumpZro addr => Sys2Proof.Machine.execJumpZro addr s
  | .jumpAbv addr => Sys2Proof.Machine.execJumpAbv addr s
  | .jumpBlw addr => Sys2Proof.Machine.execJumpBlw addr s
  | .halt unused => Sys2Proof.Machine.execHalt unused s

end Sys2Proof.Machine
end

