-- ==== Sys2Proof/Machine/Stages.lean ====
section
/-! DEFINITION. The stages other than EXECUTE (40_stage_machine.md R141 to R148), and the instruction that EXECUTE
reads from the latch. -/

namespace Sys2Proof.Machine

/-- R142, R144: FETCH with the byte on the read data path: AR takes PC, the byte goes to IR. -/
def doFetchFrom (rdata : Byte) (s : State) : State :=
  { s with
    ar := s.pc
    ir := rdata
    stage := .decode
    more := true }

/-- R142: FETCH. The address multiplexer selects PC, and the byte read goes to IR. IDLE does the same (R141). -/
def doFetch (s : State) : State := doFetchFrom (memRead s.mem s.pc.toNat).1 s

/-- R145, R146: DECODE under a lookup of opcodes. A partial lookup makes InvalidInstructionFault reachable
(93_implementation_defined.md I2). -/
def doDecodeWith (look : Nibble → Option Mnemonic) (s : State) : State :=
  match parseWith look s.ir with
  | some d => { s with dec := some d, stage := .execute, more := true }
  | none => raiseInvalidInstruction s

/-- R145, R146: DECODE under the parameters' `OPCODE_MAP`. -/
def doDecodeIn (p : Params) (s : State) : State := doDecodeWith (mnemonicOfIn p) s

/-- DECODE under the default `OPCODE_MAP`. -/
def doDecode (s : State) : State := doDecodeIn Config.params s

/-- R148: a step in the HALT stage changes nothing and returns false. -/
def doHalt (s : State) : State := { s with more := false }

/-- R147: the instruction that an EXECUTE step runs: the mnemonic in the decode latch, with the operand `ir[3:0]` that
the instructions' rules read (log entry 6). -/
def latchedInstrIn (p : Params) (s : State) : Option Instr :=
  s.dec.map fun d => Instr.ofPartsIn p d.mnemonic (operandField s.ir)

/-- The latched instruction under the default register codes. -/
def latchedInstr (s : State) : Option Instr := latchedInstrIn Config.params s

end Sys2Proof.Machine
end

