-- ==== Sys2Proof/Machine/Step.lean ====
section
/-! DEFINITION. `step()` (40_stage_machine.md R140): each step performs exactly one stage. -/

namespace Sys2Proof.Machine

/-- R140: one step. Its Boolean result is the field `more` of the next state. -/
def step (s : State) : Host.Outcome State Fault Refusal :=
  match s.stage with
  | .idle => .next (doFetch s)
  | .fetch => .next (doFetch s)
  | .decode => .next (doDecode s)
  | .execute =>
    match latchedInstr s with
    | some i => exec i s
    | none => .refused .decodeLatchEmpty
  | .halt => .next (doHalt s)

/-- The state in which the next step is the EXECUTE step of the given word: the word is stored at PC, and FETCH and
DECODE have been performed on it. An instruction takes three steps (R274), so the very next step runs the instruction
only from here: log entry 5. -/
def State.withFetchWord (s : State) (nbits w : Nat) : State :=
  doDecode (doFetch { s with mem := s.mem.write s.pc.toNat (tableByte nbits w) })

end Sys2Proof.Machine
end

