-- ==== Sys2Proof/Machine/Assembler.lean ====
section
/-! DEFINITION. The assembler: the toolchain syntax of the instruction set (30_encoding.md R102 to R111, R116). A text
is a list of characters. A line break is the newline character, and white space is spaces and tabs (R116): log
entry 7. -/

namespace Sys2Proof.Machine

/-- R111: the line errors. -/
inductive LineError where
  | unknownMnemonic | missingOperand | wrongRegisterCount | unknownRegister | formatError | rangeError
  deriving DecidableEq, Repr

/-- R111: `AssemblyError`, the ordered list of (1-based physical line number, error kind). -/
abbrev AssemblyError := List (Nat × LineError)

/-- R116: white space inside a line. -/
def isBlank (c : Char) : Bool := c == ' ' || c == '\t'

/-- The letters of a token in upper case, for the case-insensitive comparisons of R105, R108 and R110. -/
def upper (cs : List Char) : List Char := cs.map Char.toUpper

/-- A text cut at every occurrence of a separator. -/
def splitAtChar (sep : Char) : List Char → List (List Char)
  | [] => [[]]
  | c :: cs =>
    if c = sep then [] :: splitAtChar sep cs
    else
      match splitAtChar sep cs with
      | [] => [[c]]
      | piece :: pieces => (c :: piece) :: pieces

/-- R103: leading and trailing white space removed. -/
def trim (cs : List Char) : List Char := ((cs.dropWhile isBlank).reverse.dropWhile isBlank).reverse

/-- The first token of a line that has no leading white space (R105, R109). -/
def firstToken (cs : List Char) : List Char := cs.takeWhile fun c => !isBlank c

/-- R106: what follows the first token, trimmed. -/
def afterToken (cs : List Char) : List Char := trim (cs.dropWhile fun c => !isBlank c)

/-- R96: the spelling of each mnemonic. -/
def mnemonicName : Mnemonic → List Char
  | .loadA => "LOAD_A".toList
  | .loadB => "LOAD_B".toList
  | .loadC => "LOAD_C".toList
  | .loadD => "LOAD_D".toList
  | .storeA => "STORE_A".toList
  | .storeB => "STORE_B".toList
  | .storeC => "STORE_C".toList
  | .storeD => "STORE_D".toList
  | .add => "ADD".toList
  | .sub => "SUB".toList
  | .jump => "JUMP".toList
  | .jumpNeg => "JUMP_NEG".toList
  | .jumpZro => "JUMP_ZRO".toList
  | .jumpAbv => "JUMP_ABV".toList
  | .jumpBlw => "JUMP_BLW".toList
  | .halt => "HALT".toList

/-- R105: the mnemonic a token names, compared case-insensitively. -/
def mnemonicOfName (tok : List Char) : Option Mnemonic :=
  Mnemonic.all.find? fun m => mnemonicName m == upper tok

/-- R98: the spelling of each register. -/
def regName : Reg → Char
  | .a => 'A'
  | .b => 'B'
  | .c => 'C'
  | .d => 'D'

/-- R108: the register a part of the operand names, compared case-insensitively. -/
def regOfName (part : List Char) : Option Reg :=
  [Reg.a, Reg.b, Reg.c, Reg.d].find? fun r => [regName r] == upper part

/-- R110: the value of a character as a digit of a base; none where it is no digit of it. The digit sets are the
spec's general knowledge (G2). -/
def digitValue (base : Nat) (c : Char) : Option Nat :=
  let k := c.toUpper.toNat
  let v := if 48 ≤ k ∧ k ≤ 57 then k - 48 else if 65 ≤ k ∧ k ≤ 70 then k - 55 else base
  if v < base then some v else none

/-- R110: the value of a string of digits, leading digit first; none where some character is no digit. -/
def digitsValue (base acc : Nat) : List Char → Option Nat
  | [] => some acc
  | c :: cs =>
    match digitValue base c with
    | some v => digitsValue base (acc * base + v) cs
    | none => none

/-- R110: the base a trailing letter names. -/
def baseOfSuffix (c : Char) : Option Nat :=
  if c.toUpper = 'B' then some 2
  else if c.toUpper = 'H' then some 16
  else if c.toUpper = 'D' then some 10
  else none

/-- R110: the base of a literal and its digits: the last character is always read as a suffix where it is one. -/
def literalParts (tok : List Char) : Nat × List Char :=
  match tok.getLast? with
  | none => (10, [])
  | some last =>
    match baseOfSuffix last with
    | some base => (base, tok.dropLast)
    | none => (10, tok)

/-- R110: `parseAddress(tok)`. -/
def parseAddress (tok : List Char) : Except LineError Addr :=
  let (base, digits) := literalParts tok
  if digits = [] then .error .formatError
  else
    match digitsValue base 0 digits with
    | none => .error .formatError
    | some v => if v > 15 then .error .rangeError else .ok (BitVec.ofNat 4 v)

/-- R109: the operand of an address-class line: its first token, any further tokens ignored. -/
def parseAddressOperand (operand : List Char) : Except LineError Addr :=
  match firstToken operand with
  | [] => .error .missingOperand
  | tok => parseAddress tok

/-- R108: the operand of ADD and SUB. R108 lists the three errors and gives no precedence where a line has several of
them. DESIGN CHOICE: they are tested in the order of the list, so an operand with a part count other than 2 is
`WrongRegisterCount` whatever its parts name (`ADD X,A,B`): log entry 15. -/
def parseRegisterPair (operand : List Char) : Except LineError (Reg × Reg) :=
  if operand = [] then .error .missingOperand
  else
    match splitAtChar ',' operand with
    | [p1, p2] =>
      match regOfName (trim p1), regOfName (trim p2) with
      | some r1, some r2 => .ok (r1, r2)
      | _, _ => .error .unknownRegister
    | _ => .error .wrongRegisterCount

/-- R107 to R109: the word of an instruction line, by the class of its mnemonic. -/
def assembleOperandIn (p : Params) (m : Mnemonic) (operand : List Char) : Except LineError Byte :=
  match m.opClass with
  | .halt => .ok (wordOf (p.opcodeMap m) 0)
  | .arithmetic => (parseRegisterPair operand).map fun (r1, r2) => wordOf (p.opcodeMap m) (regPairIn p r1 r2)
  | .load => (parseAddressOperand operand).map (wordOf (p.opcodeMap m))
  | .store => (parseAddressOperand operand).map (wordOf (p.opcodeMap m))
  | .jump => (parseAddressOperand operand).map (wordOf (p.opcodeMap m))

/-- R105: an instruction line with its white space removed. -/
def assembleInstrIn (p : Params) (line : List Char) : Except LineError Byte :=
  match mnemonicOfName (firstToken line) with
  | none => .error .unknownMnemonic
  | some m => assembleOperandIn p m (afterToken line)

/-- R103: a line that begins with a comment marker. -/
def isComment : List Char → Bool
  | '#' :: _ => true
  | '/' :: '/' :: _ => true
  | _ => false

/-- R103: a line gives nothing (blank, comment) or exactly one word or one error. -/
def assembleLineIn (p : Params) (raw : List Char) : Option (Except LineError Byte) :=
  let line := trim raw
  if line = [] ∨ isComment line = true then none else some (assembleInstrIn p line)

/-- A line under the default parameters. -/
def assembleLine (raw : List Char) : Option (Except LineError Byte) := assembleLineIn Config.params raw

/-- R102, R104, R111: the errors and the words of a list of lines, the first line having the given number. -/
def assembleLinesIn (p : Params) (number : Nat) : List (List Char) → AssemblyError × List Byte
  | [] => ([], [])
  | line :: lines =>
    let (errors, words) := assembleLinesIn p (number + 1) lines
    match assembleLineIn p line with
    | none => (errors, words)
    | some (.ok w) => (errors, w :: words)
    | some (.error e) => ((number, e) :: errors, words)

/-- R102: `assemble(text)`: the bytes, or every failing line's error and no bytes at all. -/
def assembleIn (p : Params) (text : List Char) : Except AssemblyError (List Byte) :=
  match assembleLinesIn p 1 (splitAtChar '\n' text) with
  | ([], words) => .ok words
  | (e :: es, _) => .error (e :: es)

/-- The assembler under the default parameters. -/
def assemble (text : List Char) : Except AssemblyError (List Byte) := assembleIn Config.params text

/-! ### The disassembler (R112) -/

/-- A decimal digit. -/
def decimalDigit (k : Nat) : Char := Char.ofNat (48 + k)

/-- The decimal spelling of a number below 1000, without leading zeros. -/
def decimal (k : Nat) : List Char :=
  if k < 10 then [decimalDigit k]
  else if k < 100 then [decimalDigit (k / 10), decimalDigit (k % 10)]
  else [decimalDigit (k / 100), decimalDigit (k / 10 % 10), decimalDigit (k % 10)]

/-- R112: the line of one word, the placeholder where no mnemonic has its opcode (I11). -/
def disassembleWordIn (p : Params) (w : Byte) : List Char :=
  match mnemonicOfIn p (opcodeField w) with
  | none => "# UNKNOWN ".toList ++ decimal w.toNat
  | some m =>
    match m.opClass with
    | .arithmetic =>
      mnemonicName m ++ [' ', regName (regOfIn p (reg1Field (operandField w))), ',',
        regName (regOfIn p (reg2Field (operandField w)))]
    | .load => mnemonicName m ++ ' ' :: decimal (operandField w).toNat ++ ['D']
    | .store => mnemonicName m ++ ' ' :: decimal (operandField w).toNat ++ ['D']
    | .jump => mnemonicName m ++ ' ' :: decimal (operandField w).toNat ++ ['D']
    | .halt => mnemonicName m ++ ' ' :: decimal (operandField w).toNat ++ ['D']

/-- Lines joined by newlines. -/
def joinLines : List (List Char) → List Char
  | [] => []
  | [line] => line
  | line :: lines => line ++ '\n' :: joinLines lines

/-- R112: `disassemble(words)`. It never fails. -/
def disassembleIn (p : Params) (words : List Byte) : List Char := joinLines (words.map (disassembleWordIn p))

/-- The disassembler under the default parameters. -/
def disassemble (words : List Byte) : List Char := disassembleIn Config.params words

end Sys2Proof.Machine
end

