-- ==== Sys2Proof/Machine/Parametric.lean ====
section
/-! DEFINITION. The machine for any values of the parameters of R11 (00_scope.md): R147's dispatch and R140's step.
`exec` and `step` are this machine at the defaults (`execIn_params`, `stepIn_params` of Sys2Proof/Laws/Parametric.lean). -/

namespace Sys2Proof.Machine

/-- R147: the EXECUTE step of an instruction. -/
def execIn (p : Params) (i : Instr) (s : State) : Result :=
  match i with
  | .loadA addr => execLoadAIn p addr s
  | .loadB addr => execLoadBIn p addr s
  | .loadC addr => execLoadCIn p addr s
  | .loadD addr => execLoadDIn p addr s
  | .storeA addr => execStoreAIn p addr s
  | .storeB addr => execStoreBIn p addr s
  | .storeC addr => execStoreCIn p addr s
  | .storeD addr => execStoreDIn p addr s
  | .add reg1 reg2 => execAddIn p reg1 reg2 s
  | .sub reg1 reg2 => execSubIn p reg1 reg2 s
  | .jump addr => execJumpIn p addr s
  | .jumpNeg addr => execJumpNegIn p addr s
  | .jumpZro addr => execJumpZroIn p addr s
  | .jumpAbv addr => execJumpAbvIn p addr s
  | .jumpBlw addr => execJumpBlwIn p addr s
  | .halt unused => execHaltIn p unused s

/-- R140: one step. Its Boolean result is the field `more` of the next state. -/
def stepIn (p : Params) (s : State) : Result :=
  match s.stage with
  | .idle => .next (doFetch s)
  | .fetch => .next (doFetch s)
  | .decode => .next (doDecodeIn p s)
  | .execute =>
    match latchedInstrIn p s with
    | some i => execIn p i s
    | none => .refused .decodeLatchEmpty
  | .halt => .next (doHalt s)

end Sys2Proof.Machine
end

