-- ==== Sys2Proof/Machine/Ports.lean ====
section
/-! DEFINITION. The block's ports (10_state.md R42, R43): what a step asks of the memory, the input and output ports,
one clock edge of the block by itself, and one clock edge of the block wired to its memory. The ports and the clock are
decisions of the spec (D11, D12): log entry 8. -/

namespace Sys2Proof.Machine

/-- R43: the memory access of one step. -/
inductive BusRequest where
  | idle
  | read (addr : Addr)
  | write (addr : Addr) (data : Byte)
  deriving DecidableEq, Repr

/-- R43, R67: the access that the EXECUTE step of an instruction makes. -/
def instrRequest (i : Instr) (s : State) : BusRequest :=
  match i with
  | .loadA addr => .read addr
  | .loadB addr => .read addr
  | .loadC addr => .read addr
  | .loadD addr => .read addr
  | .storeA addr => .write addr s.a
  | .storeB addr => .write addr s.b
  | .storeC addr => .write addr s.c
  | .storeD addr => .write addr s.d
  | .add _ _ => .idle
  | .sub _ _ => .idle
  | .jump _ => .idle
  | .jumpNeg _ => .idle
  | .jumpZro _ => .idle
  | .jumpAbv _ => .idle
  | .jumpBlw _ => .idle
  | .halt _ => .idle

/-- R43, R143: the access that the step in the present stage makes: at most one. -/
def busRequestIn (p : Params) (s : State) : BusRequest :=
  match s.stage with
  | .idle => .read s.pc
  | .fetch => .read s.pc
  | .decode => .idle
  | .execute =>
    match latchedInstrIn p s with
    | some i => instrRequest i s
    | none => .idle
  | .halt => .idle

/-- The access under the default parameters. -/
def busRequest (s : State) : BusRequest := busRequestIn Config.params s

/-- R43: the address a request drives. -/
def BusRequest.addr : BusRequest → Option Addr
  | .idle => none
  | .read addr => some addr
  | .write addr _ => some addr

/-- R43: whether a request reads. -/
def BusRequest.isRead : BusRequest → Bool
  | .idle => false
  | .read _ => true
  | .write _ _ => false

/-- R43: the data a request writes, if it is a write. -/
def BusRequest.data : BusRequest → Option Byte
  | .idle => none
  | .read _ => none
  | .write _ v => some v

/-! ### The block by itself: its memory lies outside, behind `mem_rdata` and `mem_wdata` -/

/-- R43, R147: the EXECUTE step of an instruction in the block: a LOAD takes `mem_rdata`, a STORE only drives its
ports, and every other instruction has no access. -/
def blockExecIn (p : Params) (i : Instr) (rdata : Byte) (s : State) : Result :=
  match i with
  | .loadA addr => retireNextIn p (loadFrom .a addr rdata s)
  | .loadB addr => retireNextIn p (loadFrom .b addr rdata s)
  | .loadC addr => retireNextIn p (loadFrom .c addr rdata s)
  | .loadD addr => retireNextIn p (loadFrom .d addr rdata s)
  | .storeA addr => retireNextIn p (placeAddress addr s)
  | .storeB addr => retireNextIn p (placeAddress addr s)
  | .storeC addr => retireNextIn p (placeAddress addr s)
  | .storeD addr => retireNextIn p (placeAddress addr s)
  | .add reg1 reg2 => execAddIn p reg1 reg2 s
  | .sub reg1 reg2 => execSubIn p reg1 reg2 s
  | .jump addr => execJumpIn p addr s
  | .jumpNeg addr => execJumpNegIn p addr s
  | .jumpZro addr => execJumpZroIn p addr s
  | .jumpAbv addr => execJumpAbvIn p addr s
  | .jumpBlw addr => execJumpBlwIn p addr s
  | .halt unused => execHaltIn p unused s

/-- R42, R140: one step of the block with the byte on `mem_rdata`. The field `mem` of the state is neither read nor
written. -/
def blockStepIn (p : Params) (rdata : Byte) (s : State) : Result :=
  match s.stage with
  | .idle => .next (doFetchFrom rdata s)
  | .fetch => .next (doFetchFrom rdata s)
  | .decode => .next (doDecodeIn p s)
  | .execute =>
    match latchedInstrIn p s with
    | some i => blockExecIn p i rdata s
    | none => .refused .decodeLatchEmpty
  | .halt => .next (doHalt s)

/-- R42: the input ports. The clock is the call of `blockEdgeIn`. -/
structure Inputs where
  rst : Bool
  stepReq : Bool
  memRdata : Byte
  deriving DecidableEq, Repr

/-- R42, R261: one clock edge of the block. `rst` is synchronous and has priority over `step_req`; state changes only
here. -/
def blockEdgeIn (p : Params) (inp : Inputs) (s : State) : Result :=
  if inp.rst then .next (cpuReset s) else if inp.stepReq then blockStepIn p inp.memRdata s else .next s

/-! ### The output ports -/

/-- R26, R42: whether the edge performs a step: `step_req` without `rst`, and a step that has a next state. Which byte
stands on `mem_rdata` plays no part in that. -/
def performsStepIn (p : Params) (rst stepReq : Bool) (s : State) : Bool :=
  !rst && stepReq &&
    match blockStepIn p 0x00 s with
    | .next _ => true
    | .fault _ => false
    | .refused _ => false

/-- R42, R43: the access on the memory port at an edge: that of the step the edge performs, and none where it performs
none. -/
def portRequestIn (p : Params) (rst stepReq : Bool) (s : State) : BusRequest :=
  if performsStepIn p rst stepReq s then busRequestIn p s else .idle

/-- R42: the output ports. `mem_wdata` has a value only in a step that writes (R43); otherwise it is `none`, since no
rule says what the port shows (log entry 8). -/
structure Outputs (cycleWidth : Nat) where
  more : Bool
  memAddr : Addr
  memRe : Bool
  memWe : Bool
  memWdata : Option Byte
  stage : BitVec 3
  halted : Bool
  fault : Bool
  regA : Byte
  regB : Byte
  regC : Byte
  regD : Byte
  pc : Addr
  ar : Addr
  ir : Byte
  flagV : Bool
  flagZ : Bool
  flagN : Bool
  cycles : BitVec cycleWidth
  deriving DecidableEq, Repr

/-- R34: the encoding of the stage on its 3-bit port. -/
def Stage.code : Stage → BitVec 3
  | .idle => 0
  | .fetch => 1
  | .decode => 2
  | .execute => 3
  | .halt => 4

/-- R35: the derived output `halted`. -/
def halted (s : State) : Bool := s.stage == .halt

/-- R42: the output ports at an edge with the given `rst` and `step_req`. Without an access `mem_addr` shows AR, which
drives the port (R32): log entry 8. -/
def outputsIn (p : Params) (rst stepReq : Bool) (s : State) : Outputs p.cycleWidth :=
  { more := s.more
    memAddr := (portRequestIn p rst stepReq s).addr.getD s.ar
    memRe := (portRequestIn p rst stepReq s).isRead
    memWe := (portRequestIn p rst stepReq s).data.isSome
    memWdata := (portRequestIn p rst stepReq s).data
    stage := s.stage.code, halted := halted s, fault := s.fault
    regA := s.a, regB := s.b, regC := s.c, regD := s.d
    pc := s.pc, ar := s.ar, ir := s.ir, flagV := s.v, flagZ := s.z, flagN := s.n
    cycles := BitVec.ofNat p.cycleWidth s.cycles }

/-- The output ports under the default parameters. -/
def outputs (rst stepReq : Bool) (s : State) : Outputs Config.params.cycleWidth := outputsIn Config.params rst stepReq s

/-! ### The block wired to its memory -/

/-- R43: the memory after an edge: the byte on `mem_wdata` at `mem_addr` where `mem_we` is 1. -/
def memoryEdge (memAddr : Addr) (memWdata : Option Byte) (m : Memory) : Memory :=
  match memWdata with
  | some v => (memWrite m memAddr.toNat v.toNat).1
  | none => m

/-- R42, R43: one clock edge of the block and its memory: the memory answers `mem_addr` with `mem_rdata` within the
step, and takes the write at its end. -/
def clockEdgeIn (p : Params) (rst stepReq : Bool) (s : State) : Result :=
  let out := outputsIn p rst stepReq s
  match blockEdgeIn p ⟨rst, stepReq, (memRead s.mem out.memAddr.toNat).1⟩ s with
  | .next t => .next { t with mem := memoryEdge out.memAddr out.memWdata s.mem }
  | .fault r => .fault r
  | .refused r => .refused r

/-- The clock edge under the default parameters. -/
def clockEdge (rst stepReq : Bool) (s : State) : Result := clockEdgeIn Config.params rst stepReq s

end Sys2Proof.Machine
end

