-- ==== Sys2Proof/Machine/HostOps.lean ====
section
/-! DEFINITION. What the host can do to the core, and what it sees of it (10_state.md R40, R41, 70_reset_and_hazards.md
R260 to R270, 40_stage_machine.md R151). -/

namespace Sys2Proof.Machine

/-- R40: what a snapshot contains. -/
structure Snapshot where
  a : Byte
  b : Byte
  c : Byte
  d : Byte
  ir : Byte
  ar : Addr
  pc : Addr
  v : Bool
  z : Bool
  n : Bool
  memory : List Byte
  stage : Stage
  halted : Bool
  cycles : Nat
  fault : Bool
  deriving DecidableEq, Repr

/-- R40, R41, R66: the snapshot of a state. It is a copy, and taking it changes no state. -/
def snapshot (s : State) : Snapshot :=
  { a := s.a, b := s.b, c := s.c, d := s.d, ir := s.ir, ar := s.ar, pc := s.pc, v := s.v, z := s.z, n := s.n
    memory := s.mem.snapshot, stage := s.stage, halted := halted s, cycles := s.cycles, fault := s.fault }

/-- R266: `stepOnce()`. -/
def stepOnce (s : State) : Result := step s

/-- How a run stands when the host looks at it (R151, R270). -/
inductive RunEnd where
  | halted      -- a step returned false after HALT (fault = 0)
  | faulted     -- a step returned false after an InvalidInstructionFault (fault = 1)
  | cancelled   -- the host's flag was set between two steps; the run has not ended and may be resumed
  | running     -- every step of the observed window returned true; nothing says that the run ends (I12)
  deriving DecidableEq, Repr

/-- R270: how a run stands after a step: going on where the step returned true, and otherwise ended, the two ends told
apart by `fault`. -/
def runEnd (t : State) : RunEnd := if t.more then .running else if t.fault then .faulted else .halted

/-- R151, R270: `run()`. It calls `step()`; where that returns true, it checks the cancel flag and, unless the flag is
set, calls `step()` again. The list holds the flag as it stands at each check, between one step and the next; it is as
long as the window in which the run is observed, since nothing bounds a run (I12, log entry 11). Where a step has no
next state, there is none here. -/
def runIn (p : Params) : List Bool → State → Host.Outcome (RunEnd × State) Fault Refusal
  | [], s =>
    match stepIn p s with
    | .next t => .next (runEnd t, t)
    | .fault r => .fault r
    | .refused r => .refused r
  | cancel :: flags, s =>
    match stepIn p s with
    | .next t => if t.more then (if cancel then .next (.cancelled, t) else runIn p flags t) else .next (runEnd t, t)
    | .fault r => .fault r
    | .refused r => .refused r

/-- `run()` under the default parameters. -/
def run (flags : List Bool) (s : State) : Host.Outcome (RunEnd × State) Fault Refusal := runIn Config.params flags s

/-- R266: `runToCompletion()`, observed for up to `window + 1` steps, with no cancellation. -/
def runToCompletion (window : Nat) (s : State) : Host.Outcome (RunEnd × State) Fault Refusal :=
  run (List.replicate window false) s

/-- R263: what the host hands to `load`: program text, or raw words (R114), each masked to 8 bits (R64). -/
inductive Source where
  | text (chars : List Char)
  | bytes (words : List Int)
  deriving DecidableEq, Repr

/-- R263, R267: what `load` gives back: an AssemblyError, with no state changed, or the loaded state with the bounds
faults that seeds outside memory logged (R62, R232). -/
inductive LoadResult where
  | assemblyError (errors : AssemblyError)
  | loaded (s : State) (log : List MemoryBoundsFault)
  deriving DecidableEq, Repr

/-- R263: the raw words of a source. -/
def Source.wordsIn (p : Params) : Source → Except AssemblyError (List Int)
  | .text chars => (assembleIn p chars).map fun ws => ws.map fun w => (w.toNat : Int)
  | .bytes ws => .ok ws

/-- R264: the seeds written in order after the load, each value masked to 8 bits, with the bounds faults logged. -/
def seed (m : Memory) : List (Int × Int) → Memory × List MemoryBoundsFault
  | [] => (m, [])
  | (addr, v) :: rest =>
    let (m', f) := memWrite m addr v
    let (m'', fs) := seed m' rest
    (m'', f.toList ++ fs)

/-- R263: the host load sequence. Assembly comes first, and on an AssemblyError nothing changes. -/
def hostLoadIn (p : Params) (src : Source) (seeds : List (Int × Int)) (s : State) : LoadResult :=
  match src.wordsIn p with
  | .error errors => .assemblyError errors
  | .ok words =>
    let cleared := cpuReset { s with mem := Memory.reset }
    let (m, log) := seed (cleared.mem.load words) seeds
    .loaded { cleared with mem := m } log

/-- The load sequence under the default parameters. -/
def hostLoad (src : Source) (seeds : List (Int × Int)) (s : State) : LoadResult := hostLoadIn Config.params src seeds s

end Sys2Proof.Machine
end

