-- ==== Sys2Proof/Safety.lean ====
section
/-! DEFINITION. What counts as a safe run: every step answers a next state (R140, R230), and the machine keeps the
invariant below. -/

namespace Sys2Proof.Machine

/-- An answer that is a next state. -/
def Completes (o : Result) : Prop := ∃ t, o = .next t

/-- The word in IR was fetched from PC, and AR still shows that address (R24, R142, R150). -/
abbrev InFlight (s : State) : Prop := s.ar = s.pc ∧ s.ir = s.mem.read s.pc.toNat

/-- The three flags are as before (R28). -/
def FlagsKept (s t : State) : Prop := t.v = s.v ∧ t.z = s.z ∧ t.n = s.n

/-- Every register cell but the given ones is as before (R20). -/
def RegsKeptBut (written : List Reg) (s t : State) : Prop := ∀ r, r ∉ written → getReg r t = getReg r s

/-- IR, the decode latch and the fault indicator are as before (R31, R33, R36). -/
def HiddenKept (s t : State) : Prop := t.ir = s.ir ∧ t.dec = s.dec ∧ t.fault = s.fault

/-- Every byte of memory but the given ones reads as before. -/
def MemoryKeptBut (stored : List Nat) (s t : State) : Prop :=
  ∀ addr, addr ∉ stored → t.mem.read addr = s.mem.read addr

/-- What holds of the machine with given parameters between any two steps of any run. -/
structure MachineInvIn (p : Params) (s : State) : Prop where
  /-- memory is in canonical form: 16 cells (R60) -/
  memory : s.mem.wf = true
  /-- in DECODE, IR holds the word fetched from PC (R142) -/
  decodeStage : s.stage = .decode → InFlight s
  /-- in EXECUTE, IR still holds that word (R150) -/
  executeStage : s.stage = .execute → InFlight s
  /-- in EXECUTE, the latch equals decode(ir) (R33) -/
  latch : s.stage = .execute → s.dec = parseWith (mnemonicOfIn p) s.ir
  /-- the last step returned false exactly when the stage is HALT (R149) -/
  more : s.more = false ↔ s.stage = .halt
  /-- no InvalidInstructionFault has been reported: every word decodes (R36, R99) -/
  noFault : s.fault = false
  /-- IDLE occurs only as reset leaves it (R141) -/
  idleStage : s.stage = .idle → s = cpuReset s
  /-- the counter fits its width (R37) -/
  counter : s.cycles < 2 ^ p.cycleWidth

/-- What holds of the machine of the host's interface. -/
abbrev MachineInv (s : State) : Prop := MachineInvIn Config.params s

end Sys2Proof.Machine
end

