-- ==== Sys2Proof/Certificates/Slice0/Obligations.lean ====
section
/-! DEFINITION. The statements for the provers, from the numbered rules of spec/. A docstring names the rule a
statement formalises, and the log entry where a clause rests on a choice that the spec marks as its own. -/

open Sys2Proof Sys2Proof.Machine

/-! ### Encoding (30_encoding.md) -/

/-- R90 to R99, R11: under every well-formed choice of the parameters, decoding the word of an instruction gives the
instruction back, at every value of every operand; in particular under the defaults. The placement of the fields and the
default codes are log entry 3. -/
def Obligations.DecodeOfEncodeIsTheInstruction : Prop :=
  (∀ p : Params, p.wellFormed = true → ∀ i : Instr, decodeIn p (encodeIn p i) = .ok i) ∧
  ∀ i : Instr, decode (encode i) = .ok i

/-- R99: every 8-bit word decodes to exactly one instruction, whose word it is. -/
def Obligations.EveryWordIsExactlyOneInstruction : Prop :=
  ∀ w : Byte, ∃ i, decode w = .ok i ∧ encode i = w ∧ ∀ j, encode j = w → j = i

/-- Words written out bit by bit from the pattern column of R96, one of each format and class. Log entry 3. -/
def Obligations.WordsOfTheEncodingTableDecode : Prop :=
  decode 0b00001101 = .ok (.loadA 13) ∧ decode 0b00111111 = .ok (.loadD 15) ∧
  decode 0b01011010 = .ok (.storeB 10) ∧ decode 0b10000001 = .ok (.add .a .b) ∧
  decode 0b10011110 = .ok (.sub .d .c) ∧ decode 0b10100000 = .ok (.jump 0) ∧
  decode 0b10111001 = .ok (.jumpNeg 9) ∧ decode 0b11001000 = .ok (.jumpZro 8) ∧
  decode 0b11010011 = .ok (.jumpAbv 3) ∧ decode 0b11101111 = .ok (.jumpBlw 15) ∧
  decode 0b11110111 = .ok (.halt 7)

/-! ### The stage machine (40_stage_machine.md) -/

/-- R24, R145, R147, R150: in EXECUTE the word at PC is the one that runs: if it decodes to i, the step is `exec` of i
at that very state. Nothing is added around `exec`: the cycle count and the stage change are part of each meaning. -/
def Obligations.ExecuteStepRunsTheWordAtPc : Prop :=
  ∀ (s : State) (i : Instr), MachineInv s → s.stage = .execute → decode (s.mem.read s.pc.toNat) = .ok i →
    step s = exec i s

/-- R142, R145, R147, R149, R274: from IDLE or FETCH, two steps bring the word at PC into IR and the latch and change
nothing else, and the third step is `exec` of the instruction that word decodes to. -/
def Obligations.ThreeStepsRunTheWordAtPc : Prop :=
  ∀ (s : State) (i : Instr), s.stage = .idle ∨ s.stage = .fetch →
    decode (s.mem.read s.pc.toNat) = .ok i →
    ∃ s1 s2, step s = .next s1 ∧ step s1 = .next s2 ∧
      s1 = { s with ar := s.pc, ir := s.mem.read s.pc.toNat, stage := .decode, more := true } ∧
      s2 = { s with
        ar := s.pc
        ir := s.mem.read s.pc.toNat
        dec := some ⟨i.mnemonic, opcodeField (s.mem.read s.pc.toNat), operandField (s.mem.read s.pc.toNat)⟩
        stage := .execute
        more := true } ∧
      step s2 = exec i s2

/-- R142: FETCH puts PC on the address, the byte read in IR, and changes nothing but AR, IR and the stage; it returns
true. The read cannot raise a bounds fault. -/
def Obligations.FetchReadsTheWordAtPc : Prop :=
  ∀ s : State, s.stage = .fetch →
    step s = .next { s with ar := s.pc, ir := s.mem.read s.pc.toNat, stage := .decode, more := true } ∧
    (memRead s.mem s.pc.toNat).2 = none

/-- R141: a step in IDLE does exactly what a FETCH step does, IDLE holds only the reset values, and no step enters
it. -/
def Obligations.IdleIsFetchAndIsNeverEntered : Prop :=
  (∀ s : State, s.stage = .idle → step s = step { s with stage := .fetch }) ∧
  (∀ s : State, MachineInv s → s.stage = .idle → s = { State.reset with mem := s.mem }) ∧
  (∀ s t : State, step s = .next t → t.stage ≠ .idle)

/-- R145: DECODE fills the latch with {mnemonic, opcode, operand} and moves to EXECUTE; apart from the stage and the
latch it changes no state. That DECODE is a step of its own is a decision of the spec (D27). -/
def Obligations.DecodeFillsTheLatch : Prop :=
  ∀ s : State, s.stage = .decode →
    ∃ m, opcodeMap m = s.ir.extractLsb' 4 4 ∧
      step s = .next { s with
        dec := some ⟨m, s.ir.extractLsb' 4 4, s.ir.extractLsb' 0 4⟩, stage := .execute, more := true }

/-- R146, R231: for any map of opcodes that has no mnemonic for IR's opcode, DECODE sets `fault`, moves to HALT and
returns false, and no other state changes; so does the step of a machine whose parameters leave that opcode out. The
`fault` bit is a decision of the spec (D14, log entry 4). -/
def Obligations.DecodeFailureHaltsWithTheFaultBit : Prop :=
  (∀ (look : Nibble → Option Mnemonic) (s : State), look (s.ir.extractLsb' 4 4) = none →
    doDecodeWith look s = { s with fault := true, stage := .halt, more := false }) ∧
  ∀ (p : Params) (s : State), s.stage = .decode → (∀ m, p.opcodeMap m ≠ s.ir.extractLsb' 4 4) →
    stepIn p s = .next { s with fault := true, stage := .halt, more := false }

/-- R148: a step in the HALT stage changes nothing and returns false; reset leaves it. -/
def Obligations.HaltStageChangesNothing : Prop :=
  ∀ s : State, s.stage = .halt → step s = .next { s with more := false } ∧ (cpuReset s).stage = .idle

/-- R148: once halted with the last step's result false, any number of steps leaves exactly the same state. -/
def Obligations.HaltedForAnyNumberOfSteps : Prop :=
  ∀ (k : Nat) (s : State), s.stage = .halt → s.more = false → Sys2Proof.core.run k s = .next s

/-- R149: the complete transition relation: the stage after a step and the Boolean it returns, in every row of the
table; the row of a word that does not decode for any map that lacks it; and reset. That a step in EXECUTE has a next
state at all rests on the spec's defaults wrap at PC = 15 (D5, log entry 1) and nop for JUMP_ABV and JUMP_BLW (D9, log
entry 2). -/
def Obligations.StageTransitionsAreExactlyTheTable : Prop :=
  (∀ s : State, MachineInv s → ∃ t, step s = .next t ∧
    (s.stage = .idle → t.stage = .decode ∧ t.more = true) ∧
    (s.stage = .fetch → t.stage = .decode ∧ t.more = true) ∧
    (s.stage = .decode → t.stage = .execute ∧ t.more = true) ∧
    (s.stage = .execute → opcodeField s.ir ≠ opcodeMap .halt → t.stage = .fetch ∧ t.more = true) ∧
    (s.stage = .execute → opcodeField s.ir = opcodeMap .halt → t.stage = .halt ∧ t.more = false) ∧
    (s.stage = .halt → t.stage = .halt ∧ t.more = false)) ∧
  (∀ (look : Nibble → Option Mnemonic) (s : State), look (opcodeField s.ir) = none →
    (doDecodeWith look s).stage = .halt ∧ (doDecodeWith look s).more = false) ∧
  (∀ s : State, (cpuReset s).stage = .idle)

/-- R140, R236, R240: no step fails to complete, in any stage, for any word and any data. This rests on the defaults of
`PC_INC_AT_15` and `RESERVED_JUMP_MODE` (log entries 1 and 2), and on nothing else about the parameters. -/
def Obligations.EveryStepCompletes : Prop :=
  (∀ (p : Params) (s : State), p.wellFormed = true → p.pcIncAt15 = .wrap → p.reservedJumpMode = .nop →
    MachineInvIn p s → Completes (stepIn p s)) ∧
  ∀ s : State, MachineInv s → Completes (step s)

/-- The invariant is kept by every step, under every well-formed choice of the parameters of R11: memory canonical
(R60), the word in flight fetched from PC (R150), the latch equal to decode(ir) (R33), `more` false exactly in HALT
(R149), no fault (R99), IDLE only after reset (R141), the counter within its width (R37). -/
def Obligations.StepKeepsTheMachineInvariant : Prop :=
  (∀ (p : Params) (s t : State), p.wellFormed = true → MachineInvIn p s → stepIn p s = .next t →
    MachineInvIn p t) ∧
  ∀ s t : State, MachineInv s → step s = .next t → MachineInv t

/-- The invariant holds after reset, under every choice of the parameters, whatever canonical memory the reset leaves
(R260, R261). -/
def Obligations.ResetEstablishesTheMachineInvariant : Prop :=
  MachineInv State.reset ∧ ∀ (p : Params) (s : State), s.mem.wf = true → MachineInvIn p (cpuReset s)

/-- R67, R149, R150: a step in any stage but EXECUTE leaves the registers, PC, the flags, the cycle counter and every
byte of memory as they were. -/
def Obligations.OnlyExecuteChangesProgramState : Prop :=
  ∀ s t : State, s.stage ≠ .execute → step s = .next t →
    RegsKeptBut [] s t ∧ t.pc = s.pc ∧ FlagsKept s t ∧ t.cycles = s.cycles ∧ MemoryKeptBut [] s t

/-! ### Registers of the core (10_state.md) -/

/-- R28, R183: the flags are written by the EXECUTE step of ADD or SUB, which writes all three from its own result, and
by no other instruction and no other stage. -/
def Obligations.FlagsAreWrittenOnlyByAddAndSub : Prop :=
  ∀ s t : State, step s = .next t →
    (∀ r q, s.stage = .execute → latchedInstr s = some (.add r q) →
      t.v = (alu .add (getReg r s) (getReg q s)).v ∧ t.z = (alu .add (getReg r s) (getReg q s)).z ∧
      t.n = (alu .add (getReg r s) (getReg q s)).n) ∧
    (∀ r q, s.stage = .execute → latchedInstr s = some (.sub r q) →
      t.v = (alu .sub (getReg r s) (getReg q s)).v ∧ t.z = (alu .sub (getReg r s) (getReg q s)).z ∧
      t.n = (alu .sub (getReg r s) (getReg q s)).n) ∧
    ((s.stage ≠ .execute ∨ ∀ r q, latchedInstr s ≠ some (.add r q) ∧ latchedInstr s ≠ some (.sub r q)) →
      FlagsKept s t)

/-- R31: only FETCH writes IR, with the byte at PC; a STORE to the cell IR was fetched from does not change IR; IR is
0x00 after reset. -/
def Obligations.InstructionRegisterIsWrittenOnlyByFetch : Prop :=
  (∀ s t : State, step s = .next t →
    t.ir = if s.stage = .idle ∨ s.stage = .fetch then s.mem.read s.pc.toNat else s.ir) ∧
  State.reset.ir = 0x00

/-- R32, R143: after a step AR holds the address the step placed on the bus, PC in FETCH and the operand in LOAD and
STORE, and is unchanged where there is none. The untouched AR of the other instructions is a decision of the spec
(D8, log entry 4). -/
def Obligations.AddressRegisterFollowsTheBus : Prop :=
  ∀ s t : State, step s = .next t → t.ar = (busRequest s).addr.getD s.ar

/-- R36: no step sets `fault` on this hardware, and reset clears it. The bit is a decision of the spec (D14, log
entry 4). -/
def Obligations.FaultBitIsNeverSetByAStep : Prop :=
  (∀ s t : State, step s = .next t → t.fault = s.fault) ∧ ∀ s : State, (cpuReset s).fault = false

/-- R37: the cycle counter counts EXECUTE steps, HALT's included, and wraps at its width, under every `CYCLE_WIDTH`;
the default width is 32. The policy is a decision of the spec (D10, log entry 4). -/
def Obligations.CyclesCountExecuteSteps : Prop :=
  (∀ (p : Params) (s t : State), p.wellFormed = true → stepIn p s = .next t →
    t.cycles = if s.stage = .execute then (s.cycles + 1) % 2 ^ p.cycleWidth else s.cycles) ∧
  ∀ s t : State, step s = .next t → t.cycles = if s.stage = .execute then (s.cycles + 1) % 2 ^ 32 else s.cycles

/-- R29, R32, R36, R37, R39: no instruction and no stage reads V, AR, `fault` or `cycles`: two states that differ only
there have next states that differ only there. -/
def Obligations.UnreadStateDoesNotInfluenceAnything : Prop :=
  ∀ (s t : State) (v' fault' : Bool) (ar' : Addr) (cycles' : Nat), step s = .next t →
    ∃ u, step { s with v := v', ar := ar', fault := fault', cycles := cycles' } = .next u ∧
      { u with v := t.v, ar := t.ar, fault := t.fault, cycles := t.cycles } = t

/-- R26: `pc_inc` under both values of `PC_INC_AT_15`: the 4-bit successor under wrap, and under stuck no value at 15
and the plain successor below it. Under stuck, an EXECUTE step at 15 that would evaluate `pc_inc(15)` has no next state;
JUMP, a taken conditional jump and HALT are unaffected. The parameter is open in the source, and wrap is the spec's
default (D5, log entry 1). -/
def Obligations.PcIncrementUnderBothModes : Prop :=
  (∀ x : Addr, ∃ q, pcInc .wrap x = some q ∧ q.toNat = (x.toNat + 1) % 16) ∧
  (∀ x : Addr, x.toNat < 15 → ∃ q, pcInc .stuck x = some q ∧ q.toNat = x.toNat + 1) ∧
  pcInc .stuck 15 = none ∧
  ∀ (p : Params) (x : Addr) (r q : Reg) (s : State), p.pcIncAt15 = .stuck → s.pc = 15 →
    (∀ i ∈ [Instr.loadA x, .loadB x, .loadC x, .loadD x, .storeA x, .storeB x, .storeC x, .storeD x, .add r q, .sub r q],
      execIn p i s = .fault .pcIncStuck) ∧
    (p.reservedJumpMode = .nop → ∀ i ∈ [Instr.jumpAbv x, .jumpBlw x], execIn p i s = .fault .pcIncStuck) ∧
    (s.n = false → execIn p (.jumpNeg x) s = .fault .pcIncStuck) ∧
    (s.z = false → execIn p (.jumpZro x) s = .fault .pcIncStuck) ∧
    Completes (execIn p (.jump x) s) ∧ (s.n = true → Completes (execIn p (.jumpNeg x) s)) ∧
    (s.z = true → Completes (execIn p (.jumpZro x) s)) ∧ Completes (execIn p (.halt x) s)

/-! ### LOAD and STORE (41_load_store.md) -/

/-- R170 to R173: each LOAD completes in every state: the byte at the address goes to its register unchanged, AR takes
the address, PC advances. AR, PC at 15 and the counter rest on decisions of the spec (log entries 1 and 4). -/
def Obligations.LoadCopiesTheByteToItsRegister : Prop :=
  ∀ (x : Addr) (s : State),
    exec (.loadA x) s = .next { s with
      a := s.mem.read x.toNat, ar := x, pc := s.pc + 1, cycles := (s.cycles + 1) % 2 ^ 32, stage := .fetch, more := true } ∧
    exec (.loadB x) s = .next { s with
      b := s.mem.read x.toNat, ar := x, pc := s.pc + 1, cycles := (s.cycles + 1) % 2 ^ 32, stage := .fetch, more := true } ∧
    exec (.loadC x) s = .next { s with
      c := s.mem.read x.toNat, ar := x, pc := s.pc + 1, cycles := (s.cycles + 1) % 2 ^ 32, stage := .fetch, more := true } ∧
    exec (.loadD x) s = .next { s with
      d := s.mem.read x.toNat, ar := x, pc := s.pc + 1, cycles := (s.cycles + 1) % 2 ^ 32, stage := .fetch, more := true }

/-- The frame of LOAD: no flag, no other register, not IR, the latch or `fault`, and no byte of memory changes. AR, PC,
the counter, the stage and `more` change as R170 to R173 and R147 say. -/
def Obligations.LoadLeavesEverythingElse : Prop :=
  ∀ (i : Instr) (r : Reg) (x : Addr) (s t : State),
    (i, r) ∈ [(Instr.loadA x, Reg.a), (.loadB x, .b), (.loadC x, .c), (.loadD x, .d)] → exec i s = .next t →
    RegsKeptBut [r] s t ∧ FlagsKept s t ∧ HiddenKept s t ∧ MemoryKeptBut [] s t

/-- R174 to R177: each STORE completes in every state with canonical memory: the cell at the address reads as its
register, AR takes the address, PC advances, and the register is unchanged. Log entries 1 and 4 as for LOAD. -/
def Obligations.StoreCopiesItsRegisterToTheByte : Prop :=
  ∀ (i : Instr) (r : Reg) (x : Addr) (s : State), s.mem.wf = true →
    (i, r) ∈ [(Instr.storeA x, Reg.a), (.storeB x, .b), (.storeC x, .c), (.storeD x, .d)] →
    ∃ m : Memory, m.wf = true ∧ m.read x.toNat = getReg r s ∧
      (∀ addr, addr ≠ x.toNat → m.read addr = s.mem.read addr) ∧
      exec i s = .next { s with
        mem := m, ar := x, pc := s.pc + 1, cycles := (s.cycles + 1) % 2 ^ 32, stage := .fetch, more := true }

/-- The frame of STORE, in every state: no register, no flag, not IR, the latch or `fault`, and no byte of memory but
the one at the operand address changes. -/
def Obligations.StoreLeavesEverythingElse : Prop :=
  ∀ (i : Instr) (x : Addr) (s t : State),
    i ∈ [Instr.storeA x, .storeB x, .storeC x, .storeD x] → exec i s = .next t →
    RegsKeptBut [] s t ∧ FlagsKept s t ∧ HiddenKept s t ∧ MemoryKeptBut [x.toNat] s t

/-- R77, R271, R273: a STORE does not change IR, and a FETCH of the cell it wrote, even in the very next step, reads
the byte it wrote. At PC = 15 the next FETCH is of cell 0, which is the spec's default of `PC_INC_AT_15` (D5, log
entry 1). -/
def Obligations.StoreIsSeenByTheNextFetch : Prop :=
  ∀ (i : Instr) (r : Reg) (x : Addr) (s : State), s.mem.wf = true → s.pc + 1 = x →
    (i, r) ∈ [(Instr.storeA x, Reg.a), (.storeB x, .b), (.storeC x, .c), (.storeD x, .d)] →
    ∃ t u, exec i s = .next t ∧ t.ir = s.ir ∧ step t = .next u ∧ u.ir = getReg r s

/-! ### ADD and SUB (42_arithmetic.md) -/

/-- R181: the exact signed sum or difference sets V iff it lies outside [-128, 127]; it is corrected by 256 into that
range, the corrected value sets Z and N, and its value mod 256 is the result byte. -/
def Obligations.AluFollowsTheSignedRule : Prop :=
  ∀ (op : AluOp) (p q : Byte) (exact t : Int),
    exact = (match op with | .add => p.toInt + q.toInt | .sub => p.toInt - q.toInt) →
    t = (if exact > 127 then exact - 256 else if exact < -128 then exact + 256 else exact) →
    (-128 ≤ t ∧ t ≤ 127) ∧
    ((alu op p q).v = true ↔ exact < -128 ∨ exact > 127) ∧ ((alu op p q).z = true ↔ t = 0) ∧
    ((alu op p q).n = true ↔ t < 0) ∧ ((alu op p q).r.toNat : Int) = t % 256 ∧ (alu op p q).r.toInt = t

/-- R182: the closed forms of the result and the flags hold for every pair of operands of both operations. -/
def Obligations.AluHasItsClosedForms : Prop :=
  ∀ p q : Byte,
    alu .add p q = ⟨p + q, (p.msb == q.msb) && ((p + q).msb != p.msb), p + q == 0, (p + q).msb⟩ ∧
    alu .sub p q = ⟨p - q, (p.msb != q.msb) && ((p - q).msb != p.msb), p - q == 0, (p - q).msb⟩

/-- R184, R183: ADD completes in every state, for every pair of registers, one register twice included: the 8-bit sum
goes to reg1, and all three flags are written. The flags stand in the closed forms of R182, PC at 15 and the counter
rest on log entries 1 and 4. -/
def Obligations.AddWritesSumAndFlags : Prop :=
  ∀ (r q : Reg) (s : State) (sum : Byte), sum = getReg r s + getReg q s →
    exec (.add r q) s = .next { setReg r sum s with
      v := ((getReg r s).msb == (getReg q s).msb) && (sum.msb != (getReg r s).msb)
      z := sum == 0
      n := sum.msb
      pc := s.pc + 1
      cycles := (s.cycles + 1) % 2 ^ 32
      stage := .fetch
      more := true }

/-- R185, R183: SUB, as ADD: the 8-bit difference goes to reg1, and all three flags are written. -/
def Obligations.SubWritesDifferenceAndFlags : Prop :=
  ∀ (r q : Reg) (s : State) (diff : Byte), diff = getReg r s - getReg q s →
    exec (.sub r q) s = .next { setReg r diff s with
      v := ((getReg r s).msb != (getReg q s).msb) && (diff.msb != (getReg r s).msb)
      z := diff == 0
      n := diff.msb
      pc := s.pc + 1
      cycles := (s.cycles + 1) % 2 ^ 32
      stage := .fetch
      more := true }

/-- The frame of ADD and SUB: AR, IR, the latch, `fault`, every register but reg1 and every byte of memory stay. The
flags, PC, the counter, the stage and `more` change as the rules say. -/
def Obligations.ArithmeticLeavesEverythingElse : Prop :=
  ∀ (i : Instr) (r q : Reg) (s t : State), i ∈ [Instr.add r q, .sub r q] → exec i s = .next t →
    RegsKeptBut [r] s t ∧ t.ar = s.ar ∧ HiddenKept s t ∧ MemoryKeptBut [] s t

/-! ### Jumps (43_control_transfer.md) and HALT (44_system.md) -/

/-- R200, R201: JUMP completes in every state, to every target: PC takes the target and is not incremented. -/
def Obligations.JumpSetsPcToTheTarget : Prop :=
  ∀ (x : Addr) (s : State),
    exec (.jump x) s = .next { s with pc := x, cycles := (s.cycles + 1) % 2 ^ 32, stage := .fetch, more := true }

/-- R202: JUMP_NEG completes in every state: PC takes the target if N is 1 and advances otherwise. PC at 15 rests on
log entry 1. -/
def Obligations.JumpNegFollowsTheNegativeFlag : Prop :=
  ∀ (x : Addr) (s : State),
    (s.n = true → exec (.jumpNeg x) s =
      .next { s with pc := x, cycles := (s.cycles + 1) % 2 ^ 32, stage := .fetch, more := true }) ∧
    (s.n = false → exec (.jumpNeg x) s =
      .next { s with pc := s.pc + 1, cycles := (s.cycles + 1) % 2 ^ 32, stage := .fetch, more := true })

/-- R203: JUMP_ZRO completes in every state: PC takes the target if Z is 1 and advances otherwise. PC at 15 rests on
log entry 1. -/
def Obligations.JumpZroFollowsTheZeroFlag : Prop :=
  ∀ (x : Addr) (s : State),
    (s.z = true → exec (.jumpZro x) s =
      .next { s with pc := x, cycles := (s.cycles + 1) % 2 ^ 32, stage := .fetch, more := true }) ∧
    (s.z = false → exec (.jumpZro x) s =
      .next { s with pc := s.pc + 1, cycles := (s.cycles + 1) % 2 ^ 32, stage := .fetch, more := true })

/-- R204, R205: JUMP_ABV and JUMP_BLW complete in every state and only advance PC, whatever the flags and the address.
That is the default of `RESERVED_JUMP_MODE`, a decision of the spec (D9, log entry 2). -/
def Obligations.ReservedJumpsOnlyAdvancePc : Prop :=
  ∀ (x : Addr) (s : State),
    exec (.jumpAbv x) s =
      .next { s with pc := s.pc + 1, cycles := (s.cycles + 1) % 2 ^ 32, stage := .fetch, more := true } ∧
    exec (.jumpBlw x) s =
      .next { s with pc := s.pc + 1, cycles := (s.cycles + 1) % 2 ^ 32, stage := .fetch, more := true }

/-- R204, R205: under `RESERVED_JUMP_MODE` = refuse, JUMP_ABV and JUMP_BLW are refused in every state (log entry 2). -/
def Obligations.RefuseModeRefusesReservedJumps : Prop :=
  ∀ (p : Params) (x : Addr) (s : State), p.reservedJumpMode = .refuse →
    execIn p (.jumpAbv x) s = .refused (.reservedJump .jumpAbv) ∧
    execIn p (.jumpBlw x) s = .refused (.reservedJump .jumpBlw)

/-- R94, R220: HALT completes in every state, for every value of its unused nibble: the stage becomes HALT, the step
returns false, PC and everything else stay but for the counter (log entry 4). -/
def Obligations.HaltStopsAndKeepsPc : Prop :=
  ∀ (u : Nibble) (s : State),
    exec (.halt u) s = .next { s with cycles := (s.cycles + 1) % 2 ^ 32, stage := .halt, more := false }

/-- The frame of the jumps and HALT (R200, R220): no register, no flag, not AR, IR, the latch or `fault`, and no byte
of memory changes. -/
def Obligations.JumpsAndHaltLeaveEverythingElse : Prop :=
  ∀ (i : Instr) (x : Addr) (s t : State),
    i ∈ [Instr.jump x, .jumpNeg x, .jumpZro x, .jumpAbv x, .jumpBlw x, .halt x] → exec i s = .next t →
    RegsKeptBut [] s t ∧ FlagsKept s t ∧ t.ar = s.ar ∧ HiddenKept s t ∧ MemoryKeptBut [] s t

/-! ### Memory (20_memory.md) and its port -/

/-- R61: inside memory a read returns the cell's byte; outside it, a negative address included, it returns 0 and signals
a bounds fault. That an address may be negative is deduced (log entry 14). -/
def Obligations.MemReadInsideAndOutsideMemory : Prop :=
  ∀ (m : Memory) (addr : Int),
    (0 ≤ addr → addr < 16 → memRead m addr = (m.read addr.toNat, none)) ∧
    (addr < 0 ∨ 16 ≤ addr → memRead m addr = (0x00, some ⟨addr⟩))

/-- R62: inside memory a write changes the one cell, to the value mod 256 (R16: non-negative for a negative value too);
outside it, it changes nothing and signals a bounds fault. That an address or a value may be negative is deduced (log
entry 14). -/
def Obligations.MemWriteInsideAndOutsideMemory : Prop :=
  ∀ (m : Memory) (addr v : Int), m.wf = true →
    (0 ≤ addr → addr < 16 → (memWrite m addr v).2 = none ∧
      (((memWrite m addr v).1.read addr.toNat).toNat : Int) = v % 256 ∧
      ∀ other, other ≠ addr.toNat → (memWrite m addr v).1.read other = m.read other) ∧
    (addr < 0 ∨ 16 ≤ addr → memWrite m addr v = (m, some ⟨addr⟩))

/-- R64: `Memory.load` clears every cell and copies the first 16 values, each masked to 8 bits, from address 0
on. That a value may be negative is deduced (log entry 14). -/
def Obligations.MemoryLoadClearsThenCopies : Prop :=
  ∀ (m : Memory) (bytes : List Int) (addr : Nat), addr < 16 →
    (((m.load bytes).read addr).toNat : Int) = if addr < bytes.length then bytes.getD addr 0 % 256 else 0

/-- R65, R66: after `Memory.reset` each of the 16 cells is 0x00, and a snapshot is the 16 bytes in order of address. -/
def Obligations.MemoryResetAndSnapshot : Prop :=
  (∀ addr, addr < 16 → Memory.reset.read addr = 0x00) ∧
  ∀ m : Memory, m.snapshot.length = 16 ∧ ∀ i, i < 16 → m.snapshot[i]? = some (m.read i)

/-- R43, R67, R144: a step makes at most one access. Memory after the step is memory before it with the requested write,
if there is one. The byte read goes to IR in IDLE and FETCH, and in the EXECUTE step of a LOAD to the register of that
LOAD; in the EXECUTE step of a STORE the requested write is of its register. -/
def Obligations.MemoryChangesOnlyByTheRequestedWrite : Prop :=
  ∀ s t : State, step s = .next t →
    (∀ x w, busRequest s = .write x w → t.mem = s.mem.write x.toNat w) ∧
    ((∀ x w, busRequest s ≠ .write x w) → t.mem = s.mem) ∧
    (s.stage = .idle ∨ s.stage = .fetch → busRequest s = .read s.pc ∧ t.ir = s.mem.read s.pc.toNat) ∧
    (∀ i r x, s.stage = .execute → latchedInstr s = some i →
      (i, r) ∈ [(Instr.loadA x, Reg.a), (.loadB x, .b), (.loadC x, .c), (.loadD x, .d)] →
      busRequest s = .read x ∧ getReg r t = s.mem.read x.toNat) ∧
    (∀ i r x, s.stage = .execute → latchedInstr s = some i →
      (i, r) ∈ [(Instr.storeA x, Reg.a), (.storeB x, .b), (.storeC x, .c), (.storeD x, .d)] →
      busRequest s = .write x (getReg r s))

/-- R42, R43: what the memory port shows at an edge, in each kind of step, and that it shows no access at an edge with
`rst` or without `step_req`, which performs no step. The ports are a decision of the spec (D11, D12, log
entry 8). -/
def Obligations.MemoryPortFollowsTheStep : Prop :=
  ∀ s : State,
    (s.stage = .idle ∨ s.stage = .fetch →
      (outputs false true s).memAddr = s.pc ∧ (outputs false true s).memRe = true ∧ (outputs false true s).memWe = false) ∧
    (∀ i x, s.stage = .execute → latchedInstr s = some i →
      i ∈ [Instr.loadA x, .loadB x, .loadC x, .loadD x] →
      (outputs false true s).memAddr = x ∧ (outputs false true s).memRe = true ∧ (outputs false true s).memWe = false) ∧
    (∀ i r x, s.stage = .execute → latchedInstr s = some i →
      (i, r) ∈ [(Instr.storeA x, Reg.a), (.storeB x, .b), (.storeC x, .c), (.storeD x, .d)] →
      (outputs false true s).memAddr = x ∧ (outputs false true s).memRe = false ∧ (outputs false true s).memWe = true ∧
        (outputs false true s).memWdata = some (getReg r s)) ∧
    (s.stage = .decode ∨ s.stage = .halt → (outputs false true s).memRe = false ∧ (outputs false true s).memWe = false) ∧
    (∀ i, s.stage = .execute → latchedInstr s = some i →
      i.mnemonic ∈ [Mnemonic.add, .sub, .jump, .jumpNeg, .jumpZro, .jumpAbv, .jumpBlw, .halt] →
      (outputs false true s).memRe = false ∧ (outputs false true s).memWe = false) ∧
    ∀ rst req, rst = true ∨ req = false → (outputs rst req s).memRe = false ∧ (outputs rst req s).memWe = false

/-- R42, R43: the block, given the byte at `mem_addr` on `mem_rdata`, and the memory, given `mem_we` and `mem_wdata`,
together perform exactly one step at an edge with `step_req`, under every choice of the parameters; the block neither
reads nor writes the memory but through its ports. The ports are a decision of the spec (D11, D12, log entry 8). -/
def Obligations.BlockAndMemoryPerformTheStep : Prop :=
  (∀ (p : Params) (s : State), clockEdgeIn p false true s = stepIn p s) ∧
  ∀ (p : Params) (inp : Inputs) (s t : State) (m : Memory), blockEdgeIn p inp s = .next t →
    t.mem = s.mem ∧ blockEdgeIn p inp { s with mem := m } = .next { t with mem := m }

/-- R11: the machine of the host's interface is the parametric machine at the defaults; and another `OPCODE_MAP` or
`REG_CODE` changes the meaning of no instruction, only of words. -/
def Obligations.DefaultMachineIsTheParametricOne : Prop :=
  (∀ s : State, stepIn Config.params s = step s) ∧
  (∀ (i : Instr) (s : State), execIn Config.params i s = exec i s) ∧
  ∀ (p : Params) (map : Mnemonic → Nibble) (code : Reg → BitVec 2) (i : Instr) (s : State),
    execIn { p with opcodeMap := map, regCode := code } i s = execIn p i s

/-- R63: no address the core drives is outside memory: a read or write at a 4-bit address never signals a bounds
fault. That the value written may be negative is deduced (log entry 14). -/
def Obligations.CoreAddressesNeverLeaveMemory : Prop :=
  ∀ (m : Memory) (x : Addr) (w : Int), (memRead m x.toNat).2 = none ∧ (memWrite m x.toNat w).2 = none

/-! ### Reset, the host and runs (70_reset_and_hazards.md) -/

/-- R260, R261: CPU reset gives every piece of core state its reset value, in any stage, and does not change memory;
`rst` has priority over `step_req` at an edge, and an edge with neither changes nothing. The ports, the `fault` bit and
the counter are decisions of the spec (log entries 4 and 8). -/
def Obligations.CpuResetGivesTheResetValues : Prop :=
  ∀ s : State,
    cpuReset s = {
      a := 0x00, b := 0x00, c := 0x00, d := 0x00, pc := 0, v := false, z := false, n := false
      ir := 0x00, ar := 0, dec := none, stage := .idle, fault := false, cycles := 0, more := true, mem := s.mem } ∧
    (∀ req, clockEdge true req s = .next (cpuReset s)) ∧ clockEdge false true s = step s ∧
    clockEdge false false s = .next s

/-- R263, R264: loading words resets the core, clears memory, copies the words and then writes the seeds in order: a
cell reads as the last seed at its address, and otherwise as its word, each masked to 8 bits; the bounds faults of the
seeds outside memory come back in order. Loading text does the same with its assembled bytes; where the text does not
assemble, the errors come back and no state. The sequence is a decision of the spec (D24, log entry 11); negative numbers
are log entry 14. -/
def Obligations.HostLoadResetsThenCopies : Prop :=
  (∀ (ws : List Int) (seeds : List (Int × Int)) (s : State), ∃ t,
    hostLoad (.bytes ws) seeds s =
      .loaded t ((seeds.filter fun q => decide (q.1 < 0 ∨ 16 ≤ q.1)).map fun q => ⟨q.1⟩) ∧
    t = { State.reset with mem := t.mem } ∧ t.mem.wf = true ∧
    ∀ addr : Nat, addr < 16 → ((t.mem.read addr).toNat : Int) =
      match seeds.reverse.find? fun q => decide (q.1 = (addr : Int)) with
      | some q => q.2 % 256
      | none => if addr < ws.length then ws.getD addr 0 % 256 else 0) ∧
  (∀ (cs : List Char) (ws : List Byte) (seeds : List (Int × Int)) (s : State), assemble cs = .ok ws →
    hostLoad (.text cs) seeds s = hostLoad (.bytes (ws.map fun w => (w.toNat : Int))) seeds s) ∧
  ∀ (cs : List Char) (errors : AssemblyError) (seeds : List (Int × Int)) (s : State), assemble cs = .error errors →
    hostLoad (.text cs) seeds s = .assemblyError errors

/-- R264: seeds are written in order after the load: the last seed decides its own cell, masked to 8 bits, and leaves
every other cell as the seeds before it left it. The order is a decision of the spec (D24, log entry 11); negative
addresses and values are log entry 14. -/
def Obligations.LaterSeedsOverrideEarlierOnes : Prop :=
  ∀ (m : Memory) (seeds : List (Int × Int)) (addr : Nat) (v : Int), m.wf = true → addr < 16 →
    (((seed m (seeds ++ [((addr : Int), v)])).1.read addr).toNat : Int) = v % 256 ∧
    ∀ other, other ≠ addr → (seed m (seeds ++ [((addr : Int), v)])).1.read other = (seed m seeds).1.read other

/-- R34, R35, R40: the snapshot shows the registers, PC, IR, AR, the flags, the 16 bytes of memory, the stage, the
halted flag, the counter and `fault`; the stage port encodes the five stages as 0 to 4, and no other code. The codes and
`fault` are decisions of the spec (log entries 4 and 8). -/
def Obligations.SnapshotShowsTheState : Prop :=
  (∀ s t : State, s.mem.wf = true → t.mem.wf = true → s.dec = t.dec → s.more = t.more →
    snapshot s = snapshot t → s = t) ∧
  (∀ s : State, (snapshot s).halted = true ↔ s.stage = .halt) ∧
  ∀ g : Stage, g.code.toNat =
    match g with | .idle => 0 | .fetch => 1 | .decode => 2 | .execute => 3 | .halt => 4

/-- R151, R270: `run` calls step; where the step returns true it goes on from there at a false flag, and is cancelled at
a true one; where the step returns false it ends, halted or faulted as `fault` says. So a run makes k + 1 steps, all but
the last returning true with a false flag after them; it is halted exactly if the last step returned false, cancelled
exactly if a true flag follows the last step, and still running exactly if the window of flags is used up. Halted means
the stage HALT with `fault` = 0; a run that has not ended stands in FETCH, DECODE or EXECUTE. It rests on the fault bit
(D14, log entry 4), the finite window (log entry 11) and, for every step having a next state, on log entries 1 and 2. -/
def Obligations.RunsEndExactlyWhenTheStageIsHalt : Prop :=
  (∀ s t : State, step s = .next t →
    (t.more = true → run [] s = .next (.running, t) ∧
      ∀ flags, run (false :: flags) s = run flags t ∧ run (true :: flags) s = .next (.cancelled, t)) ∧
    (t.more = false → ∀ flags, run flags s = .next (if t.fault then .faulted else .halted, t))) ∧
  ∀ (flags : List Bool) (s : State), MachineInv s → ∃ e k t, run flags s = .next (e, t) ∧ k ≤ flags.length ∧
    Sys2Proof.core.run (k + 1) s = .next t ∧
    (∀ j, j < k → flags[j]? = some false ∧ ∃ u : State, Sys2Proof.core.run (j + 1) s = .next u ∧ u.more = true) ∧
    (e = .halted ↔ t.more = false) ∧ (e = .cancelled ↔ t.more = true ∧ flags[k]? = some true) ∧
    (e = .running ↔ t.more = true ∧ k = flags.length) ∧ e ≠ .faulted ∧
    (t.more = false → t.stage = .halt ∧ t.fault = false) ∧
    (t.more = true → t.stage = .fetch ∨ t.stage = .decode ∨ t.stage = .execute)

/-- R265: stepped with nothing loaded, the core executes LOAD_A 0 forever: after 3k + 3 steps PC has advanced k + 1
times around the 16 cells, k + 1 instructions are counted, A is 0, and the stage is FETCH. It rests on log entries 1,
3 and 4. -/
def Obligations.EmptyMemoryNeverHalts : Prop :=
  ∀ k : Nat, ∃ t : State, Sys2Proof.core.run (3 * (k + 1)) State.reset = .next t ∧ t.stage = .fetch ∧
    t.pc.toNat = (k + 1) % 16 ∧ t.cycles = (k + 1) % 2 ^ 32 ∧ t.a = 0x00 ∧ ∀ addr, t.mem.read addr = 0x00

/-! ### The toolchain (30_encoding.md) -/

/-- R110: a literal of digits of a base with its suffix, suffix and digits in either case, or of decimal digits without
one, has the value of its digits, leading zeros allowed: it parses to that address up to 15 and is a RangeError above;
with no digit, or with a character that is no digit of the base, it is a FormatError. The case rule and the empty-digits
rule are decisions of the spec (D20, log entry 7), the digit sets its general knowledge (G2). -/
def Obligations.AddressLiteralsAreRecovered : Prop :=
  ∀ (base : Nat) (suffix : Char),
    (base, suffix) ∈ [(2, 'B'), (2, 'b'), (16, 'H'), (16, 'h'), (10, 'D'), (10, 'd')] →
    (∀ (ds : List Nat) (v : Nat) (out : Except LineError Addr), ds ≠ [] → (∀ d ∈ ds, d < base) →
      v = ds.foldl (fun acc d => acc * base + d) 0 →
      out = (if v ≤ 15 then .ok (BitVec.ofNat 4 v) else .error .rangeError) →
      parseAddress (ds.map Nat.digitChar ++ [suffix]) = out ∧
      parseAddress (ds.map (fun d => d.digitChar.toUpper) ++ [suffix]) = out ∧
      (base = 10 → parseAddress (ds.map Nat.digitChar) = out)) ∧
    ∀ cs : List Char, (cs = [] ∨ ∃ c ∈ cs, ∀ d, d < base → c ≠ d.digitChar ∧ c ≠ d.digitChar.toUpper) →
      parseAddress (cs ++ [suffix]) = .error .formatError

/-- R102, R111: a text assembles to its lines' words in order if no line fails; otherwise it gives every failing line's
error with its 1-based number, in order, and no bytes. -/
def Obligations.AssemblyIsAllOrNothing : Prop :=
  ∀ (text : List Char) (errors : AssemblyError),
    errors = ((splitAtChar '\n' text).zipIdx 1).filterMap (fun (line, number) =>
      match assembleLine line with
      | some (.error e) => some (number, e)
      | _ => none) →
    (errors = [] → assemble text = .ok ((splitAtChar '\n' text).filterMap fun line =>
      match assembleLine line with
      | some (.ok w) => some w
      | _ => none)) ∧
    (errors ≠ [] → assemble text = .error errors)

/-- R113: for raw words, disassembling and assembling again gives the words back, but that a HALT word with a nonzero
operand becomes 0xF0. -/
def Obligations.ReassembledRawWordsAreTheWords : Prop :=
  ∀ ws : List Byte,
    assemble (disassemble ws) =
      .ok (ws.map fun w => if w.extractLsb' 4 4 = (0xF : Nibble) then (0xF0 : Byte) else w)

/-- R113: for every text that assembles, disassembling its bytes and assembling again gives the same bytes. -/
def Obligations.AssembledTextRoundTrips : Prop :=
  ∀ (text : List Char) (ws : List Byte), assemble text = .ok ws → assemble (disassemble ws) = .ok ws
end

