-- ==== Sys2Proof/Laws/Alu.lean ====
section
/-! SUPPORT. The ALU: the range of two's-complement reading, and what one correction of 256 does (R181). -/

namespace Sys2Proof.Machine

theorem s8_bounds (p : Byte) : -128 ≤ s8 p ∧ s8 p ≤ 127 := by
  have := p.isLt
  unfold s8
  split <;> omega

theorem s8_eq_toInt (p : Byte) : s8 p = p.toInt := by
  have := p.isLt
  unfold s8
  rw [BitVec.toInt_eq_toNat_cond]
  split <;> split <;> omega

theorem aluExact_bounds (op : AluOp) (p q : Byte) : -256 ≤ aluExact op p q ∧ aluExact op p q ≤ 255 := by
  have hp := s8_bounds p
  have hq := s8_bounds q
  cases op <;> simp only [aluExact] <;> omega

theorem aluWrap_bounds {t : Int} (h : -256 ≤ t ∧ t ≤ 255) : -128 ≤ aluWrap t ∧ aluWrap t ≤ 127 := by
  unfold aluWrap
  split
  · omega
  · split <;> omega

end Sys2Proof.Machine
end

