-- ==== Sys2Proof/Laws/Assembler.lean ====
section
/-! SUPPORT. Cutting and joining lines. -/

namespace Sys2Proof.Machine

theorem splitAtChar_ne_nil (sep : Char) (cs : List Char) : splitAtChar sep cs ≠ [] := by
  cases cs with
  | nil => simp [splitAtChar]
  | cons c cs =>
    simp only [splitAtChar]
    split
    · simp
    · split <;> simp

/-- A text without the separator is one piece. -/
theorem splitAtChar_of_notMem {sep : Char} {cs : List Char} (h : sep ∉ cs) : splitAtChar sep cs = [cs] := by
  induction cs with
  | nil => rfl
  | cons c cs ih =>
    simp only [List.mem_cons, not_or] at h
    simp [splitAtChar, ih h.2, Ne.symm h.1]

/-- A piece without the separator, the separator, and more: the piece comes first. -/
theorem splitAtChar_append {sep : Char} {cs : List Char} (h : sep ∉ cs) (rest : List Char) :
    splitAtChar sep (cs ++ sep :: rest) = cs :: splitAtChar sep rest := by
  induction cs with
  | nil => simp [splitAtChar]
  | cons c cs ih =>
    simp only [List.mem_cons, not_or] at h
    simp [splitAtChar, ih h.2, Ne.symm h.1]

/-- Lines that hold no newline are found again in their joined text. -/
theorem splitAtChar_joinLines {lines : List (List Char)} (hne : lines ≠ [])
    (h : ∀ line ∈ lines, '\n' ∉ line) : splitAtChar '\n' (joinLines lines) = lines := by
  induction lines with
  | nil => exact absurd rfl hne
  | cons line rest ih =>
    have hline := h line (by simp)
    cases rest with
    | nil => exact splitAtChar_of_notMem hline
    | cons next more =>
      simp only [joinLines]
      rw [splitAtChar_append hline, ih (by simp) fun l hl => h l (by simp [hl])]

end Sys2Proof.Machine
end

