-- ==== Sys2Proof/Laws/Core.lean ====
section
/-! SUPPORT. Runs of the host's interface in terms of `step`. -/

namespace Sys2Proof

open Machine

@[simp] theorem core_run_zero (s : State) : core.run 0 s = .next s := rfl

/-- A run whose first step answers a next state goes on from there. -/
theorem core_run_next {s t : State} (k : Nat) (h : step s = .next t) : core.run (k + 1) s = core.run k t := by
  have h' : core.step s = .next t := h
  simp only [Host.Core.run, h']

end Sys2Proof
end

