-- ==== Sys2Proof/Laws/Decode.lean ====
section
/-! SUPPORT. The small lemmas of the fields, the opcode map and the register codes, for any well-formed parameters. -/

namespace Sys2Proof

@[simp] theorem opcodeField_wordOf (op x : Nibble) : opcodeField (wordOf op x) = op := by
  revert op x; decide

@[simp] theorem operandField_wordOf (op x : Nibble) : operandField (wordOf op x) = x := by
  revert op x; decide

@[simp] theorem wordOf_fields (w : Byte) : wordOf (opcodeField w) (operandField w) = w := by
  revert w; decide

@[simp] theorem reg1Field_append (x y : BitVec 2) : reg1Field (x ++ y) = x := by revert x y; decide

@[simp] theorem reg2Field_append (x y : BitVec 2) : reg2Field (x ++ y) = y := by revert x y; decide

@[simp] theorem regFields_append (x : Nibble) : reg1Field x ++ reg2Field x = x := by revert x; decide

/-! ### Well-formed parameters -/

/-- R11: the defaults are well formed. -/
@[simp] theorem params_wellFormed : Config.params.wellFormed = true := by decide

@[simp] theorem params_opcodeMap : Config.params.opcodeMap = opcodeMap := rfl
@[simp] theorem params_regCode : Config.params.regCode = regCode := rfl
@[simp] theorem params_pcIncAt15 : Config.params.pcIncAt15 = .wrap := rfl
@[simp] theorem params_reservedJumpMode : Config.params.reservedJumpMode = .nop := rfl
@[simp] theorem params_cycleWidth : Config.params.cycleWidth = 32 := rfl
@[simp] theorem mnemonicOfIn_params : mnemonicOfIn Config.params = mnemonicOf := rfl

theorem Mnemonic.mem_all (m : Mnemonic) : m ∈ Mnemonic.all := by cases m <;> decide

theorem Reg.mem_all (r : Reg) : r ∈ Reg.all := by cases r <;> decide

section
variable {p : Params} (hp : p.wellFormed = true)
include hp

theorem Params.opcodeMap_injective : Function.Injective p.opcodeMap := by
  simp only [Params.wellFormed, Bool.and_eq_true, decide_eq_true_eq] at hp
  intro m k h
  exact List.inj_on_of_nodup_map hp.1.1 (Mnemonic.mem_all m) (Mnemonic.mem_all k) h

theorem Params.regCode_injective : Function.Injective p.regCode := by
  simp only [Params.wellFormed, Bool.and_eq_true, decide_eq_true_eq] at hp
  intro r q h
  exact List.inj_on_of_nodup_map hp.1.2 (Reg.mem_all r) (Reg.mem_all q) h

theorem Params.cycleWidth_pos : 0 < p.cycleWidth := by
  simp only [Params.wellFormed, Bool.and_eq_true, decide_eq_true_eq] at hp
  exact hp.2

/-- R96: the map is one-to-one. -/
theorem mnemonicOfIn_opcodeMap (m : Mnemonic) : mnemonicOfIn p (p.opcodeMap m) = some m := by
  cases h : mnemonicOfIn p (p.opcodeMap m) with
  | none =>
    have := List.find?_eq_none.1 h m (Mnemonic.mem_all m)
    simp at this
  | some k =>
    have := List.find?_some h
    have hk : p.opcodeMap k = p.opcodeMap m := by simpa using this
    rw [Params.opcodeMap_injective hp hk]

/-- R96: the map is onto. -/
theorem opcodeMap_onto (op : Nibble) : ∃ m, mnemonicOfIn p op = some m ∧ p.opcodeMap m = op := by
  have hmem : op ∈ Mnemonic.all.map p.opcodeMap := by
    have hn : (Mnemonic.all.map fun m => (p.opcodeMap m).toFin).Nodup := by
      have : (Mnemonic.all.map p.opcodeMap).Nodup := by
        simp only [Params.wellFormed, Bool.and_eq_true, decide_eq_true_eq] at hp
        exact hp.1.1
      have := this.map (f := BitVec.toFin) fun _ _ => BitVec.eq_of_toFin_eq
      simpa [List.map_map, Function.comp_def] using this
    have hc := List.toFinset_card_of_nodup hn
    have hu := Finset.eq_univ_of_card _ (hc.trans (by simp [Mnemonic.all]))
    have := Finset.mem_univ op.toFin
    rw [← hu, List.mem_toFinset, List.mem_map] at this
    obtain ⟨m, hm, he⟩ := this
    exact List.mem_map.2 ⟨m, hm, BitVec.eq_of_toFin_eq he⟩
  obtain ⟨m, -, rfl⟩ := List.mem_map.1 hmem
  exact ⟨m, mnemonicOfIn_opcodeMap hp m, rfl⟩

theorem regOfIn_regCode (r : Reg) : regOfIn p (p.regCode r) = r := by
  have hi := Params.regCode_injective hp
  cases r <;> simp [regOfIn, hi.eq_iff]

theorem regCode_regOfIn (code : BitVec 2) : p.regCode (regOfIn p code) = code := by
  have hmem : code ∈ Reg.all.map p.regCode := by
    have hn : (Reg.all.map fun r => (p.regCode r).toFin).Nodup := by
      have : (Reg.all.map p.regCode).Nodup := by
        simp only [Params.wellFormed, Bool.and_eq_true, decide_eq_true_eq] at hp
        exact hp.1.2
      have := this.map (f := BitVec.toFin) fun _ _ => BitVec.eq_of_toFin_eq
      simpa [List.map_map, Function.comp_def] using this
    have hc := List.toFinset_card_of_nodup hn
    have hu := Finset.eq_univ_of_card _ (hc.trans (by simp [Reg.all]))
    have := Finset.mem_univ code.toFin
    rw [← hu, List.mem_toFinset, List.mem_map] at this
    obtain ⟨m, hm, he⟩ := this
    exact List.mem_map.2 ⟨m, hm, BitVec.eq_of_toFin_eq he⟩
  obtain ⟨r, -, rfl⟩ := List.mem_map.1 hmem
  rw [regOfIn_regCode hp]

/-- R99: the latch triple of a word always exists, and it is well formed. -/
theorem parse_some (w : Byte) : ∃ m, parseWith (mnemonicOfIn p) w = some ⟨m, opcodeField w, operandField w⟩ ∧
    mnemonicOfIn p (opcodeField w) = some m ∧ p.opcodeMap m = opcodeField w := by
  obtain ⟨m, h1, h2⟩ := opcodeMap_onto hp (opcodeField w)
  exact ⟨m, by simp [parseWith, h1], h1, h2⟩

/-- The operand nibble of an instruction made from parts is the nibble it was made from. -/
theorem operandIn_ofPartsIn (m : Mnemonic) (x : Nibble) : (Instr.ofPartsIn p m x).operandIn p = x := by
  cases m <;> simp [Instr.ofPartsIn, Instr.operandIn, regPairIn, regCode_regOfIn hp]

end

@[simp] theorem ofPartsIn_mnemonic (p : Params) (m : Mnemonic) (x : Nibble) :
    (Instr.ofPartsIn p m x).mnemonic = m := by
  cases m <;> rfl

/-- The decoder and the latch triple read the same instruction. -/
theorem decodeIn_eq_of_parse {p : Params} {w : Byte} {d : Decoded} (h : parseWith (mnemonicOfIn p) w = some d) :
    decodeIn p w = .ok (Instr.ofPartsIn p d.mnemonic (operandField w)) := by
  simp only [parseWith, Option.map_eq_some_iff] at h
  obtain ⟨m, hm, rfl⟩ := h
  simp [decodeIn, hm]

end Sys2Proof
end

