-- ==== Sys2Proof/Laws/Memory.lean ====
section
/-! SUPPORT. The laws of memory: reading after writing, and that every memory operation keeps the canonical form. -/

namespace Sys2Proof.Machine

@[simp] theorem Memory.read_nil (addr : Nat) : Memory.read [] addr = 0 := rfl

/-! ### The canonical form as facts -/

theorem Memory.wfFrom_cons (lo x : Nat) (v : Byte) (m : Memory) :
    Memory.wfFrom lo ((x, v) :: m) = true ↔
      lo ≤ x ∧ x < 16 ∧ v ≠ 0 ∧ Memory.wfFrom (x + 1) m = true := by
  simp only [Memory.wfFrom, Bool.and_eq_true, decide_eq_true_eq, and_assoc]
  rfl

theorem Memory.wfFrom_le {lo hi : Nat} {m : Memory} (h : lo ≤ hi) (hm : Memory.wfFrom hi m = true) :
    Memory.wfFrom lo m = true := by
  cases m with
  | nil => rfl
  | cons cell rest =>
    obtain ⟨x, v⟩ := cell
    rw [Memory.wfFrom_cons] at hm ⊢
    exact ⟨by omega, hm.2⟩

/-- A cell below every listed one is not listed. -/
theorem Memory.read_below {lo addr : Nat} {m : Memory} (hm : Memory.wfFrom lo m = true) (h : addr < lo) :
    m.read addr = 0 := by
  induction m generalizing lo with
  | nil => rfl
  | cons cell rest ih =>
    obtain ⟨x, v⟩ := cell
    rw [Memory.wfFrom_cons] at hm
    have hne : addr ≠ x := by omega
    simp only [Memory.read, if_neg hne]
    exact ih hm.2.2.2 (by omega)

/-! ### Reading after writing -/

/-- R73: a read returns what the most recent write to that address wrote. -/
theorem Memory.read_write_same {lo : Nat} {m : Memory} (hm : Memory.wfFrom lo m = true) (addr : Nat) (v : Byte) :
    (m.write addr v).read addr = v := by
  induction m generalizing lo with
  | nil => by_cases hv : v = 0#8 <;> simp [Memory.write, Memory.read, hv, Memory.unlisted]
  | cons cell rest ih =>
    obtain ⟨x, w⟩ := cell
    rw [Memory.wfFrom_cons] at hm
    simp only [Memory.write]
    split
    · rename_i hlt
      split
      · rename_i hv
        have hne : addr ≠ x := by omega
        simp only [Memory.read, if_neg hne]
        rw [Memory.read_below hm.2.2.2 (by omega), hv]
        rfl
      · simp [Memory.read]
    · split
      · rename_i heq
        split
        · rename_i hv
          rw [Memory.read_below hm.2.2.2 (by omega), hv]
          rfl
        · simp [Memory.read, heq]
      · rename_i hne
        simp only [Memory.read, if_neg hne]
        exact ih hm.2.2.2

/-- A write leaves every other cell alone. -/
theorem Memory.read_write_other (m : Memory) (addr other : Nat) (v : Byte) (h : other ≠ addr) :
    (m.write addr v).read other = m.read other := by
  induction m with
  | nil => by_cases hv : v = 0#8 <;> simp [Memory.write, Memory.read, hv, h, Memory.unlisted]
  | cons cell rest ih =>
    obtain ⟨x, w⟩ := cell
    simp only [Memory.write]
    split
    · split <;> simp [Memory.read, h]
    · split
      · rename_i heq
        subst heq
        split <;> simp [Memory.read, h]
      · simp only [Memory.read, ih]

/-! ### The canonical form is kept -/

theorem Memory.wfFrom_write {lo : Nat} {m : Memory} (hm : Memory.wfFrom lo m = true) {addr : Nat} (v : Byte)
    (hlo : lo ≤ addr) (hhi : addr < 16) : Memory.wfFrom lo (m.write addr v) = true := by
  induction m generalizing lo with
  | nil =>
    by_cases hv : v = Memory.unlisted
    · simp [Memory.write, hv, Memory.wfFrom]
    · simp only [Memory.write, if_neg hv]
      rw [Memory.wfFrom_cons]
      exact ⟨hlo, hhi, hv, rfl⟩
  | cons cell rest ih =>
    obtain ⟨x, w⟩ := cell
    have hall := hm
    rw [Memory.wfFrom_cons] at hm
    obtain ⟨h1, h2, h3, h4⟩ := hm
    simp only [Memory.write]
    split
    · split
      · exact hall
      · rename_i hlt hv
        rw [Memory.wfFrom_cons, Memory.wfFrom_cons]
        exact ⟨hlo, hhi, hv, by omega, h2, h3, h4⟩
    · split
      · split
        · exact Memory.wfFrom_le (by omega) h4
        · rename_i hv
          rw [Memory.wfFrom_cons]
          exact ⟨h1, h2, hv, h4⟩
      · rw [Memory.wfFrom_cons]
        exact ⟨h1, h2, h3, ih h4 (by omega)⟩

theorem Memory.wf_write {m : Memory} (hm : m.wf = true) {addr : Nat} (v : Byte) (h : addr < 16) :
    (m.write addr v).wf = true := Memory.wfFrom_write hm v (Nat.zero_le _) h

@[simp] theorem Memory.wf_reset : Memory.reset.wf = true := rfl

theorem memWrite_wf {m : Memory} (hm : m.wf = true) (addr v : Int) : (memWrite m addr v).1.wf = true := by
  cases addr with
  | ofNat x =>
    simp only [memWrite]
    split
    · rename_i h
      exact Memory.wf_write hm _ h
    · exact hm
  | negSucc k => exact hm

theorem Memory.wf_fill {m : Memory} (hm : m.wf = true) (start : Nat) (vs : List Int) :
    (m.fill start vs).wf = true := by
  induction vs generalizing m start with
  | nil => exact hm
  | cons v vs ih =>
    simp only [Memory.fill]
    apply ih
    split
    · rename_i h
      exact Memory.wf_write hm _ h
    · exact hm

theorem Memory.wf_load (m : Memory) (bytes : List Int) : (m.load bytes).wf = true :=
  Memory.wf_fill Memory.wf_reset 0 bytes

/-! ### The core's accesses (R63) -/

/-- R60, R62: masking a byte to 8 bits changes nothing. -/
@[simp] theorem maskByte_toNat (w : Byte) : maskByte (w.toNat : Int) = w := by
  apply BitVec.eq_of_toNat_eq
  have := w.isLt
  simp only [maskByte, BitVec.toNat_ofInt]
  omega

/-- R62: what masking stores, read as an unsigned byte, is the value mod 256. -/
theorem maskByte_value (v : Int) : ((maskByte v).toNat : Int) = v % 256 := by
  simp only [maskByte, BitVec.toNat_ofInt]
  omega

/-- R61 inside memory. -/
theorem memRead_inside (m : Memory) {addr : Nat} (h : addr < 16) : memRead m addr = (m.read addr, none) :=
  if_pos h

/-- R62 inside memory. -/
theorem memWrite_inside (m : Memory) {addr : Nat} (h : addr < 16) (v : Int) :
    memWrite m addr v = (m.write addr (maskByte v), none) :=
  if_pos h

/-- R61, R62 outside memory. -/
theorem memRead_outside (m : Memory) {addr : Int} (h : addr < 0 ∨ 16 ≤ addr) :
    memRead m addr = (0x00, some ⟨addr⟩) := by
  cases addr with
  | ofNat x =>
    have hx : ¬ x < 16 := by simp only [Int.ofNat_eq_natCast] at h; omega
    exact if_neg hx
  | negSucc k => rfl

theorem memWrite_outside (m : Memory) {addr : Int} (h : addr < 0 ∨ 16 ≤ addr) (v : Int) :
    memWrite m addr v = (m, some ⟨addr⟩) := by
  cases addr with
  | ofNat x =>
    have hx : ¬ x < 16 := by simp only [Int.ofNat_eq_natCast] at h; omega
    exact if_neg hx
  | negSucc k => rfl

/-- The core never takes the bounds-fault branch of a read. -/
@[simp] theorem memRead_addr (m : Memory) (x : Addr) : memRead m (x.toNat : Int) = (m.read x.toNat, none) :=
  memRead_inside m x.isLt

/-- The core never takes the bounds-fault branch of a write, and masking a byte to 8 bits changes nothing. -/
@[simp] theorem memWrite_addr (m : Memory) (x : Addr) (w : Byte) :
    memWrite m (x.toNat : Int) (w.toNat : Int) = (m.write x.toNat w, none) := by
  rw [memWrite_inside m x.isLt, maskByte_toNat]

/-! ### Equal memories are equal data -/

theorem Memory.ext_from {lo : Nat} {m k : Memory} (hm : Memory.wfFrom lo m = true) (hk : Memory.wfFrom lo k = true)
    (h : ∀ addr, m.read addr = k.read addr) : m = k := by
  induction m generalizing lo k with
  | nil =>
    cases k with
    | nil => rfl
    | cons cell rest =>
      obtain ⟨x, v⟩ := cell
      rw [Memory.wfFrom_cons] at hk
      have := h x
      simp [Memory.read] at this
      exact absurd this.symm hk.2.2.1
  | cons cell rest ih =>
    obtain ⟨x, v⟩ := cell
    have hmAll := hm
    rw [Memory.wfFrom_cons] at hm
    cases k with
    | nil =>
      have := h x
      simp [Memory.read] at this
      exact absurd this hm.2.2.1
    | cons cell' rest' =>
      obtain ⟨y, w⟩ := cell'
      have hkAll := hk
      rw [Memory.wfFrom_cons] at hk
      have hxy : x = y := by
        rcases Nat.lt_trichotomy x y with hlt | heq | hgt
        · have h1 := h x
          have hne : x ≠ y := by omega
          simp only [Memory.read, if_neg hne, if_true] at h1
          rw [Memory.read_below hk.2.2.2 (by omega)] at h1
          exact absurd h1 hm.2.2.1
        · exact heq
        · have h1 := h y
          have hne : y ≠ x := by omega
          simp only [Memory.read, if_neg hne, if_true] at h1
          rw [Memory.read_below hm.2.2.2 (by omega)] at h1
          exact absurd h1.symm hk.2.2.1
      subst hxy
      have hvw : v = w := by simpa [Memory.read] using h x
      subst hvw
      have hrest : rest = rest' := by
        apply ih hm.2.2.2 hk.2.2.2
        intro addr
        by_cases hle : addr < x + 1
        · rw [Memory.read_below hm.2.2.2 hle, Memory.read_below hk.2.2.2 hle]
        · have hne : addr ≠ x := by omega
          simpa [Memory.read, hne] using h addr
      rw [hrest]

/-- Two canonical memories that read the same everywhere are the same list. -/
theorem Memory.ext_of_wf {m k : Memory} (hm : m.wf = true) (hk : k.wf = true)
    (h : ∀ addr, m.read addr = k.read addr) : m = k := Memory.ext_from hm hk h

end Sys2Proof.Machine
end

