-- ==== Sys2Proof/Laws/State.lean ====
section
/-! SUPPORT. What each named update of the state does to each field, so that no later proof unfolds a record update. -/

namespace Sys2Proof.Machine

/-! ### `setReg` -/

@[simp] theorem setReg_a (r : Reg) (w : Byte) (s : State) : (setReg r w s).a = if r = .a then w else s.a := by cases r <;> rfl
@[simp] theorem setReg_b (r : Reg) (w : Byte) (s : State) : (setReg r w s).b = if r = .b then w else s.b := by cases r <;> rfl
@[simp] theorem setReg_c (r : Reg) (w : Byte) (s : State) : (setReg r w s).c = if r = .c then w else s.c := by cases r <;> rfl
@[simp] theorem setReg_d (r : Reg) (w : Byte) (s : State) : (setReg r w s).d = if r = .d then w else s.d := by cases r <;> rfl
@[simp] theorem setReg_pc (r : Reg) (w : Byte) (s : State) : (setReg r w s).pc = s.pc := by cases r <;> rfl
@[simp] theorem setReg_v (r : Reg) (w : Byte) (s : State) : (setReg r w s).v = s.v := by cases r <;> rfl
@[simp] theorem setReg_z (r : Reg) (w : Byte) (s : State) : (setReg r w s).z = s.z := by cases r <;> rfl
@[simp] theorem setReg_n (r : Reg) (w : Byte) (s : State) : (setReg r w s).n = s.n := by cases r <;> rfl
@[simp] theorem setReg_ir (r : Reg) (w : Byte) (s : State) : (setReg r w s).ir = s.ir := by cases r <;> rfl
@[simp] theorem setReg_ar (r : Reg) (w : Byte) (s : State) : (setReg r w s).ar = s.ar := by cases r <;> rfl
@[simp] theorem setReg_dec (r : Reg) (w : Byte) (s : State) : (setReg r w s).dec = s.dec := by cases r <;> rfl
@[simp] theorem setReg_stage (r : Reg) (w : Byte) (s : State) : (setReg r w s).stage = s.stage := by cases r <;> rfl
@[simp] theorem setReg_fault (r : Reg) (w : Byte) (s : State) : (setReg r w s).fault = s.fault := by cases r <;> rfl
@[simp] theorem setReg_cycles (r : Reg) (w : Byte) (s : State) : (setReg r w s).cycles = s.cycles := by cases r <;> rfl
@[simp] theorem setReg_more (r : Reg) (w : Byte) (s : State) : (setReg r w s).more = s.more := by cases r <;> rfl
@[simp] theorem setReg_mem (r : Reg) (w : Byte) (s : State) : (setReg r w s).mem = s.mem := by cases r <;> rfl

/-! ### `setFlags` -/

@[simp] theorem setFlags_a (res : AluResult) (s : State) : (setFlags res s).a = s.a := rfl
@[simp] theorem setFlags_b (res : AluResult) (s : State) : (setFlags res s).b = s.b := rfl
@[simp] theorem setFlags_c (res : AluResult) (s : State) : (setFlags res s).c = s.c := rfl
@[simp] theorem setFlags_d (res : AluResult) (s : State) : (setFlags res s).d = s.d := rfl
@[simp] theorem setFlags_pc (res : AluResult) (s : State) : (setFlags res s).pc = s.pc := rfl
@[simp] theorem setFlags_v (res : AluResult) (s : State) : (setFlags res s).v = res.v := rfl
@[simp] theorem setFlags_z (res : AluResult) (s : State) : (setFlags res s).z = res.z := rfl
@[simp] theorem setFlags_n (res : AluResult) (s : State) : (setFlags res s).n = res.n := rfl
@[simp] theorem setFlags_ir (res : AluResult) (s : State) : (setFlags res s).ir = s.ir := rfl
@[simp] theorem setFlags_ar (res : AluResult) (s : State) : (setFlags res s).ar = s.ar := rfl
@[simp] theorem setFlags_dec (res : AluResult) (s : State) : (setFlags res s).dec = s.dec := rfl
@[simp] theorem setFlags_stage (res : AluResult) (s : State) : (setFlags res s).stage = s.stage := rfl
@[simp] theorem setFlags_fault (res : AluResult) (s : State) : (setFlags res s).fault = s.fault := rfl
@[simp] theorem setFlags_cycles (res : AluResult) (s : State) : (setFlags res s).cycles = s.cycles := rfl
@[simp] theorem setFlags_more (res : AluResult) (s : State) : (setFlags res s).more = s.more := rfl
@[simp] theorem setFlags_mem (res : AluResult) (s : State) : (setFlags res s).mem = s.mem := rfl

/-! ### `placeAddress` -/

@[simp] theorem placeAddress_a (x : Addr) (s : State) : (placeAddress x s).a = s.a := rfl
@[simp] theorem placeAddress_b (x : Addr) (s : State) : (placeAddress x s).b = s.b := rfl
@[simp] theorem placeAddress_c (x : Addr) (s : State) : (placeAddress x s).c = s.c := rfl
@[simp] theorem placeAddress_d (x : Addr) (s : State) : (placeAddress x s).d = s.d := rfl
@[simp] theorem placeAddress_pc (x : Addr) (s : State) : (placeAddress x s).pc = s.pc := rfl
@[simp] theorem placeAddress_v (x : Addr) (s : State) : (placeAddress x s).v = s.v := rfl
@[simp] theorem placeAddress_z (x : Addr) (s : State) : (placeAddress x s).z = s.z := rfl
@[simp] theorem placeAddress_n (x : Addr) (s : State) : (placeAddress x s).n = s.n := rfl
@[simp] theorem placeAddress_ir (x : Addr) (s : State) : (placeAddress x s).ir = s.ir := rfl
@[simp] theorem placeAddress_ar (x : Addr) (s : State) : (placeAddress x s).ar = x := rfl
@[simp] theorem placeAddress_dec (x : Addr) (s : State) : (placeAddress x s).dec = s.dec := rfl
@[simp] theorem placeAddress_stage (x : Addr) (s : State) : (placeAddress x s).stage = s.stage := rfl
@[simp] theorem placeAddress_fault (x : Addr) (s : State) : (placeAddress x s).fault = s.fault := rfl
@[simp] theorem placeAddress_cycles (x : Addr) (s : State) : (placeAddress x s).cycles = s.cycles := rfl
@[simp] theorem placeAddress_more (x : Addr) (s : State) : (placeAddress x s).more = s.more := rfl
@[simp] theorem placeAddress_mem (x : Addr) (s : State) : (placeAddress x s).mem = s.mem := rfl

/-! ### `retireIn` -/

@[simp] theorem retireIn_a (p : Params) (s : State) : (retireIn p s).a = s.a := rfl
@[simp] theorem retireIn_b (p : Params) (s : State) : (retireIn p s).b = s.b := rfl
@[simp] theorem retireIn_c (p : Params) (s : State) : (retireIn p s).c = s.c := rfl
@[simp] theorem retireIn_d (p : Params) (s : State) : (retireIn p s).d = s.d := rfl
@[simp] theorem retireIn_pc (p : Params) (s : State) : (retireIn p s).pc = s.pc := rfl
@[simp] theorem retireIn_v (p : Params) (s : State) : (retireIn p s).v = s.v := rfl
@[simp] theorem retireIn_z (p : Params) (s : State) : (retireIn p s).z = s.z := rfl
@[simp] theorem retireIn_n (p : Params) (s : State) : (retireIn p s).n = s.n := rfl
@[simp] theorem retireIn_ir (p : Params) (s : State) : (retireIn p s).ir = s.ir := rfl
@[simp] theorem retireIn_ar (p : Params) (s : State) : (retireIn p s).ar = s.ar := rfl
@[simp] theorem retireIn_dec (p : Params) (s : State) : (retireIn p s).dec = s.dec := rfl
@[simp] theorem retireIn_stage (p : Params) (s : State) : (retireIn p s).stage = .fetch := rfl
@[simp] theorem retireIn_fault (p : Params) (s : State) : (retireIn p s).fault = s.fault := rfl
@[simp] theorem retireIn_cycles (p : Params) (s : State) : (retireIn p s).cycles = nextCycles p s := rfl
@[simp] theorem retireIn_more (p : Params) (s : State) : (retireIn p s).more = true := rfl
@[simp] theorem retireIn_mem (p : Params) (s : State) : (retireIn p s).mem = s.mem := rfl

/-! ### `retireHaltIn` -/

@[simp] theorem retireHaltIn_a (p : Params) (s : State) : (retireHaltIn p s).a = s.a := rfl
@[simp] theorem retireHaltIn_b (p : Params) (s : State) : (retireHaltIn p s).b = s.b := rfl
@[simp] theorem retireHaltIn_c (p : Params) (s : State) : (retireHaltIn p s).c = s.c := rfl
@[simp] theorem retireHaltIn_d (p : Params) (s : State) : (retireHaltIn p s).d = s.d := rfl
@[simp] theorem retireHaltIn_pc (p : Params) (s : State) : (retireHaltIn p s).pc = s.pc := rfl
@[simp] theorem retireHaltIn_v (p : Params) (s : State) : (retireHaltIn p s).v = s.v := rfl
@[simp] theorem retireHaltIn_z (p : Params) (s : State) : (retireHaltIn p s).z = s.z := rfl
@[simp] theorem retireHaltIn_n (p : Params) (s : State) : (retireHaltIn p s).n = s.n := rfl
@[simp] theorem retireHaltIn_ir (p : Params) (s : State) : (retireHaltIn p s).ir = s.ir := rfl
@[simp] theorem retireHaltIn_ar (p : Params) (s : State) : (retireHaltIn p s).ar = s.ar := rfl
@[simp] theorem retireHaltIn_dec (p : Params) (s : State) : (retireHaltIn p s).dec = s.dec := rfl
@[simp] theorem retireHaltIn_stage (p : Params) (s : State) : (retireHaltIn p s).stage = .halt := rfl
@[simp] theorem retireHaltIn_fault (p : Params) (s : State) : (retireHaltIn p s).fault = s.fault := rfl
@[simp] theorem retireHaltIn_cycles (p : Params) (s : State) : (retireHaltIn p s).cycles = nextCycles p s := rfl
@[simp] theorem retireHaltIn_more (p : Params) (s : State) : (retireHaltIn p s).more = false := rfl
@[simp] theorem retireHaltIn_mem (p : Params) (s : State) : (retireHaltIn p s).mem = s.mem := rfl

/-! ### `raiseInvalidInstruction` -/

@[simp] theorem raiseInvalidInstruction_a (s : State) : (raiseInvalidInstruction s).a = s.a := rfl
@[simp] theorem raiseInvalidInstruction_b (s : State) : (raiseInvalidInstruction s).b = s.b := rfl
@[simp] theorem raiseInvalidInstruction_c (s : State) : (raiseInvalidInstruction s).c = s.c := rfl
@[simp] theorem raiseInvalidInstruction_d (s : State) : (raiseInvalidInstruction s).d = s.d := rfl
@[simp] theorem raiseInvalidInstruction_pc (s : State) : (raiseInvalidInstruction s).pc = s.pc := rfl
@[simp] theorem raiseInvalidInstruction_v (s : State) : (raiseInvalidInstruction s).v = s.v := rfl
@[simp] theorem raiseInvalidInstruction_z (s : State) : (raiseInvalidInstruction s).z = s.z := rfl
@[simp] theorem raiseInvalidInstruction_n (s : State) : (raiseInvalidInstruction s).n = s.n := rfl
@[simp] theorem raiseInvalidInstruction_ir (s : State) : (raiseInvalidInstruction s).ir = s.ir := rfl
@[simp] theorem raiseInvalidInstruction_ar (s : State) : (raiseInvalidInstruction s).ar = s.ar := rfl
@[simp] theorem raiseInvalidInstruction_dec (s : State) : (raiseInvalidInstruction s).dec = s.dec := rfl
@[simp] theorem raiseInvalidInstruction_stage (s : State) : (raiseInvalidInstruction s).stage = .halt := rfl
@[simp] theorem raiseInvalidInstruction_fault (s : State) : (raiseInvalidInstruction s).fault = true := rfl
@[simp] theorem raiseInvalidInstruction_cycles (s : State) : (raiseInvalidInstruction s).cycles = s.cycles := rfl
@[simp] theorem raiseInvalidInstruction_more (s : State) : (raiseInvalidInstruction s).more = false := rfl
@[simp] theorem raiseInvalidInstruction_mem (s : State) : (raiseInvalidInstruction s).mem = s.mem := rfl

/-! ### `cpuReset` -/

@[simp] theorem cpuReset_a (s : State) : (cpuReset s).a = 0 := rfl
@[simp] theorem cpuReset_b (s : State) : (cpuReset s).b = 0 := rfl
@[simp] theorem cpuReset_c (s : State) : (cpuReset s).c = 0 := rfl
@[simp] theorem cpuReset_d (s : State) : (cpuReset s).d = 0 := rfl
@[simp] theorem cpuReset_pc (s : State) : (cpuReset s).pc = 0 := rfl
@[simp] theorem cpuReset_v (s : State) : (cpuReset s).v = false := rfl
@[simp] theorem cpuReset_z (s : State) : (cpuReset s).z = false := rfl
@[simp] theorem cpuReset_n (s : State) : (cpuReset s).n = false := rfl
@[simp] theorem cpuReset_ir (s : State) : (cpuReset s).ir = 0 := rfl
@[simp] theorem cpuReset_ar (s : State) : (cpuReset s).ar = 0 := rfl
@[simp] theorem cpuReset_dec (s : State) : (cpuReset s).dec = none := rfl
@[simp] theorem cpuReset_stage (s : State) : (cpuReset s).stage = .idle := rfl
@[simp] theorem cpuReset_fault (s : State) : (cpuReset s).fault = false := rfl
@[simp] theorem cpuReset_cycles (s : State) : (cpuReset s).cycles = 0 := rfl
@[simp] theorem cpuReset_more (s : State) : (cpuReset s).more = true := rfl
@[simp] theorem cpuReset_mem (s : State) : (cpuReset s).mem = s.mem := rfl

/-! ### `doFetchFrom` -/

@[simp] theorem doFetchFrom_a (w : Byte) (s : State) : (doFetchFrom w s).a = s.a := rfl
@[simp] theorem doFetchFrom_b (w : Byte) (s : State) : (doFetchFrom w s).b = s.b := rfl
@[simp] theorem doFetchFrom_c (w : Byte) (s : State) : (doFetchFrom w s).c = s.c := rfl
@[simp] theorem doFetchFrom_d (w : Byte) (s : State) : (doFetchFrom w s).d = s.d := rfl
@[simp] theorem doFetchFrom_pc (w : Byte) (s : State) : (doFetchFrom w s).pc = s.pc := rfl
@[simp] theorem doFetchFrom_v (w : Byte) (s : State) : (doFetchFrom w s).v = s.v := rfl
@[simp] theorem doFetchFrom_z (w : Byte) (s : State) : (doFetchFrom w s).z = s.z := rfl
@[simp] theorem doFetchFrom_n (w : Byte) (s : State) : (doFetchFrom w s).n = s.n := rfl
@[simp] theorem doFetchFrom_ir (w : Byte) (s : State) : (doFetchFrom w s).ir = w := rfl
@[simp] theorem doFetchFrom_ar (w : Byte) (s : State) : (doFetchFrom w s).ar = s.pc := rfl
@[simp] theorem doFetchFrom_dec (w : Byte) (s : State) : (doFetchFrom w s).dec = s.dec := rfl
@[simp] theorem doFetchFrom_stage (w : Byte) (s : State) : (doFetchFrom w s).stage = .decode := rfl
@[simp] theorem doFetchFrom_fault (w : Byte) (s : State) : (doFetchFrom w s).fault = s.fault := rfl
@[simp] theorem doFetchFrom_cycles (w : Byte) (s : State) : (doFetchFrom w s).cycles = s.cycles := rfl
@[simp] theorem doFetchFrom_more (w : Byte) (s : State) : (doFetchFrom w s).more = true := rfl
@[simp] theorem doFetchFrom_mem (w : Byte) (s : State) : (doFetchFrom w s).mem = s.mem := rfl

/-! ### `doFetch` -/

@[simp] theorem doFetch_a (s : State) : (doFetch s).a = s.a := rfl
@[simp] theorem doFetch_b (s : State) : (doFetch s).b = s.b := rfl
@[simp] theorem doFetch_c (s : State) : (doFetch s).c = s.c := rfl
@[simp] theorem doFetch_d (s : State) : (doFetch s).d = s.d := rfl
@[simp] theorem doFetch_pc (s : State) : (doFetch s).pc = s.pc := rfl
@[simp] theorem doFetch_v (s : State) : (doFetch s).v = s.v := rfl
@[simp] theorem doFetch_z (s : State) : (doFetch s).z = s.z := rfl
@[simp] theorem doFetch_n (s : State) : (doFetch s).n = s.n := rfl
@[simp] theorem doFetch_ir (s : State) : (doFetch s).ir = (memRead s.mem s.pc.toNat).1 := rfl
@[simp] theorem doFetch_ar (s : State) : (doFetch s).ar = s.pc := rfl
@[simp] theorem doFetch_dec (s : State) : (doFetch s).dec = s.dec := rfl
@[simp] theorem doFetch_stage (s : State) : (doFetch s).stage = .decode := rfl
@[simp] theorem doFetch_fault (s : State) : (doFetch s).fault = s.fault := rfl
@[simp] theorem doFetch_cycles (s : State) : (doFetch s).cycles = s.cycles := rfl
@[simp] theorem doFetch_more (s : State) : (doFetch s).more = true := rfl
@[simp] theorem doFetch_mem (s : State) : (doFetch s).mem = s.mem := rfl

/-! ### `doHalt` -/

@[simp] theorem doHalt_a (s : State) : (doHalt s).a = s.a := rfl
@[simp] theorem doHalt_b (s : State) : (doHalt s).b = s.b := rfl
@[simp] theorem doHalt_c (s : State) : (doHalt s).c = s.c := rfl
@[simp] theorem doHalt_d (s : State) : (doHalt s).d = s.d := rfl
@[simp] theorem doHalt_pc (s : State) : (doHalt s).pc = s.pc := rfl
@[simp] theorem doHalt_v (s : State) : (doHalt s).v = s.v := rfl
@[simp] theorem doHalt_z (s : State) : (doHalt s).z = s.z := rfl
@[simp] theorem doHalt_n (s : State) : (doHalt s).n = s.n := rfl
@[simp] theorem doHalt_ir (s : State) : (doHalt s).ir = s.ir := rfl
@[simp] theorem doHalt_ar (s : State) : (doHalt s).ar = s.ar := rfl
@[simp] theorem doHalt_dec (s : State) : (doHalt s).dec = s.dec := rfl
@[simp] theorem doHalt_stage (s : State) : (doHalt s).stage = s.stage := rfl
@[simp] theorem doHalt_fault (s : State) : (doHalt s).fault = s.fault := rfl
@[simp] theorem doHalt_cycles (s : State) : (doHalt s).cycles = s.cycles := rfl
@[simp] theorem doHalt_more (s : State) : (doHalt s).more = false := rfl
@[simp] theorem doHalt_mem (s : State) : (doHalt s).mem = s.mem := rfl

/-! ### Reading a register -/

@[simp] theorem getReg_a (s : State) : getReg .a s = s.a := rfl
@[simp] theorem getReg_b (s : State) : getReg .b s = s.b := rfl
@[simp] theorem getReg_c (s : State) : getReg .c s = s.c := rfl
@[simp] theorem getReg_d (s : State) : getReg .d s = s.d := rfl

/-- Every cell is independent of the others (R20). -/
theorem getReg_setReg (r q : Reg) (w : Byte) (s : State) :
    getReg q (setReg r w s) = if q = r then w else getReg q s := by
  cases r <;> cases q <;> rfl

/-- A named update that touches no register cell leaves `x[r]` alone. -/
@[simp] theorem getReg_setFlags (r : Reg) (res : AluResult) (s : State) :
    getReg r (setFlags res s) = getReg r s := by cases r <;> rfl
@[simp] theorem getReg_placeAddress (r : Reg) (x : Addr) (s : State) :
    getReg r (placeAddress x s) = getReg r s := by cases r <;> rfl
@[simp] theorem getReg_retireIn (r : Reg) (p : Params) (s : State) :
    getReg r (retireIn p s) = getReg r s := by cases r <;> rfl
@[simp] theorem getReg_retireHaltIn (r : Reg) (p : Params) (s : State) :
    getReg r (retireHaltIn p s) = getReg r s := by cases r <;> rfl
@[simp] theorem getReg_doFetch (r : Reg) (s : State) : getReg r (doFetch s) = getReg r s := by cases r <;> rfl
@[simp] theorem getReg_doHalt (r : Reg) (s : State) : getReg r (doHalt s) = getReg r s := by cases r <;> rfl

end Sys2Proof.Machine
end

