-- ==== Sys2Proof/Laws/Ops.lean ====
section
/-! SUPPORT. One lemma for each shared operation that says once what it can do. -/

namespace Sys2Proof.Machine

@[simp] theorem pcInc_wrap (x : Addr) : pcInc .wrap x = some (x + 1) := rfl

theorem pcInc_stuck (x : Addr) : pcInc .stuck x = if x = 15 then none else some (x + 1) := rfl

/-- Under wrap the end of a sequential instruction always answers. -/
theorem retireNextIn_wrap {p : Params} (h : p.pcIncAt15 = .wrap) (s : State) :
    retireNextIn p s = .next (retireIn p { s with pc := s.pc + 1 }) := by
  simp [retireNextIn, h]

/-- Under stuck it answers below address 15 and stops there. -/
theorem retireNextIn_stuck {p : Params} (h : p.pcIncAt15 = .stuck) (s : State) :
    retireNextIn p s =
      if s.pc = 15 then .fault .pcIncStuck else .next (retireIn p { s with pc := s.pc + 1 }) := by
  simp only [retireNextIn, h, pcInc_stuck]
  split <;> rename_i he <;> split at he <;> simp_all

/-- Under nop a reserved jump only advances PC. -/
theorem reservedJumpIn_nop {p : Params} (h : p.reservedJumpMode = .nop) (m : Mnemonic) (s : State) :
    reservedJumpIn p m s = retireNextIn p s := by
  simp [reservedJumpIn, h]

theorem reservedJumpIn_refuse {p : Params} (h : p.reservedJumpMode = .refuse) (m : Mnemonic) (s : State) :
    reservedJumpIn p m s = .refused (.reservedJump m) := by
  simp [reservedJumpIn, h]

theorem retireAtIn_eq (p : Params) (target : Addr) (s : State) :
    retireAtIn p target s = .next (retireIn p { s with pc := target }) := rfl

/-- Under wrap a conditional jump answers one of its two next states. -/
theorem jumpIfIn_wrap {p : Params} (h : p.pcIncAt15 = .wrap) (cond : Bool) (target : Addr) (s : State) :
    jumpIfIn p cond target s = .next (retireIn p { s with pc := if cond then target else s.pc + 1 }) := by
  cases cond <;> simp [jumpIfIn, retireNextIn_wrap h, retireAtIn_eq]

theorem loadFrom_eq (r : Reg) (x : Addr) (w : Byte) (s : State) :
    loadFrom r x w s = setReg r w { s with ar := x } := rfl

/-- The load data path: AR takes the address, the register the byte of the cell. -/
theorem loadOperand_eq (r : Reg) (x : Addr) (s : State) :
    loadOperand r x s = setReg r (s.mem.read x.toNat) { s with ar := x } := by
  simp [loadOperand, loadFrom_eq]

/-- The store data path: AR takes the address, the cell the byte of the register. -/
theorem storeOperand_eq (r : Reg) (x : Addr) (s : State) :
    storeOperand r x s = { s with ar := x, mem := s.mem.write x.toNat (getReg r s) } := by
  simp [storeOperand, placeAddress]

/-- The ALU data path: the result to reg1, the three flags, and nothing else. -/
theorem aluOperands_eq (op : AluOp) (r q : Reg) (s : State) :
    aluOperands op r q s =
      setFlags (alu op (getReg r s) (getReg q s)) (setReg r (alu op (getReg r s) (getReg q s)).r s) := rfl

/-- FETCH with the byte of the cell at PC. -/
theorem doFetch_eq (s : State) : doFetch s = doFetchFrom (s.mem.read s.pc.toNat) s := by simp [doFetch]

end Sys2Proof.Machine
end

