-- ==== Sys2Proof/Laws/Parametric.lean ====
section
/-! SUPPORT. The machine of the host's interface is the parametric machine at the defaults of R11. -/

namespace Sys2Proof.Machine

@[simp] theorem execIn_params (i : Instr) (s : State) : execIn Config.params i s = exec i s := by cases i <;> rfl

@[simp] theorem stepIn_params (s : State) : stepIn Config.params s = step s := by
  have h : execIn Config.params = exec := funext fun i => funext fun s => execIn_params i s
  unfold stepIn
  rw [h]
  rfl

end Sys2Proof.Machine
end

