-- ==== Sys2Proof/Laws/PerInstr.lean ====
section
/-! SUPPORT. Statements made for every instruction, one lemma for each constructor. -/

namespace Sys2Proof.Laws.WordFields

open Sys2Proof

/-- R91, R96, R99: the instruction is well formed, and its word carries the opcode of its mnemonic in bits 7:4 and its
operand in bits 3:0. -/
def Statement (i : Instr) : Prop :=
  i.wellFormed = true ∧ opcodeField (encode i) = opcodeMap i.mnemonic ∧ operandField (encode i) = i.operand

theorem of_fields (i : Instr) (h : i.wellFormed = true) : Statement i := ⟨h, by simp [encode, encodeIn], by simp [encode, encodeIn, Instr.operand]⟩

theorem loadA (addr : Addr) : Statement (.loadA addr) := of_fields _ rfl
theorem loadB (addr : Addr) : Statement (.loadB addr) := of_fields _ rfl
theorem loadC (addr : Addr) : Statement (.loadC addr) := of_fields _ rfl
theorem loadD (addr : Addr) : Statement (.loadD addr) := of_fields _ rfl
theorem storeA (addr : Addr) : Statement (.storeA addr) := of_fields _ rfl
theorem storeB (addr : Addr) : Statement (.storeB addr) := of_fields _ rfl
theorem storeC (addr : Addr) : Statement (.storeC addr) := of_fields _ rfl
theorem storeD (addr : Addr) : Statement (.storeD addr) := of_fields _ rfl
theorem add (reg1 reg2 : Reg) : Statement (.add reg1 reg2) := of_fields _ rfl
theorem sub (reg1 reg2 : Reg) : Statement (.sub reg1 reg2) := of_fields _ rfl
theorem jump (addr : Addr) : Statement (.jump addr) := of_fields _ rfl
theorem jumpNeg (addr : Addr) : Statement (.jumpNeg addr) := of_fields _ rfl
theorem jumpZro (addr : Addr) : Statement (.jumpZro addr) := of_fields _ rfl
theorem jumpAbv (addr : Addr) : Statement (.jumpAbv addr) := of_fields _ rfl
theorem jumpBlw (addr : Addr) : Statement (.jumpBlw addr) := of_fields _ rfl
theorem halt (unused : Nibble) : Statement (.halt unused) := of_fields _ rfl

end Sys2Proof.Laws.WordFields
end

