-- ==== Sys2Proof/Laws/Step.lean ====
section
/-! SUPPORT. What a step can do, said once. -/

namespace Sys2Proof.Machine

/-- The answer of the step in each stage, under any parameters. -/
theorem stepIn_idle (p : Params) {s : State} (h : s.stage = .idle) : stepIn p s = .next (doFetch s) := by
  simp [stepIn, h]

theorem stepIn_fetch (p : Params) {s : State} (h : s.stage = .fetch) : stepIn p s = .next (doFetch s) := by
  simp [stepIn, h]

theorem stepIn_decode (p : Params) {s : State} (h : s.stage = .decode) : stepIn p s = .next (doDecodeIn p s) := by
  simp [stepIn, h]

theorem stepIn_halt (p : Params) {s : State} (h : s.stage = .halt) : stepIn p s = .next (doHalt s) := by
  simp [stepIn, h]

theorem stepIn_execute {p : Params} {s : State} {i : Instr} (h : s.stage = .execute)
    (hi : latchedInstrIn p s = some i) : stepIn p s = execIn p i s := by simp [stepIn, h, hi]

/-- The answer of the step in each stage, at the defaults. -/
theorem step_idle {s : State} (h : s.stage = .idle) : step s = .next (doFetch s) := by simp [step, h]

theorem step_fetch {s : State} (h : s.stage = .fetch) : step s = .next (doFetch s) := by simp [step, h]

theorem step_decode {s : State} (h : s.stage = .decode) : step s = .next (doDecode s) := by simp [step, h]

theorem step_halt {s : State} (h : s.stage = .halt) : step s = .next (doHalt s) := by simp [step, h]

theorem step_execute {s : State} {i : Instr} (h : s.stage = .execute) (hi : latchedInstr s = some i) :
    step s = exec i s := by simp [step, h, hi]

/-- If a step answers a next state, it was one of FETCH (or IDLE), DECODE, EXECUTE of the latched instruction, or a
step in the HALT stage. -/
theorem stepIn_cases {p : Params} {s t : State} (h : stepIn p s = .next t) :
    ((s.stage = .idle ∨ s.stage = .fetch) ∧ t = doFetch s) ∨
    (s.stage = .decode ∧ t = doDecodeIn p s) ∨
    (s.stage = .execute ∧ ∃ i, latchedInstrIn p s = some i ∧ execIn p i s = .next t) ∨
    (s.stage = .halt ∧ t = doHalt s) := by
  unfold stepIn at h
  split at h
  · rename_i hs; cases h; exact .inl ⟨.inl hs, rfl⟩
  · rename_i hs; cases h; exact .inl ⟨.inr hs, rfl⟩
  · rename_i hs; cases h; exact .inr (.inl ⟨hs, rfl⟩)
  · rename_i hs
    split at h
    · rename_i i hi; exact .inr (.inr (.inl ⟨hs, i, hi, h⟩))
    · cases h
  · rename_i hs; cases h; exact .inr (.inr (.inr ⟨hs, rfl⟩))

/-- The same at the defaults. -/
theorem step_cases {s t : State} (h : step s = .next t) :
    ((s.stage = .idle ∨ s.stage = .fetch) ∧ t = doFetch s) ∨
    (s.stage = .decode ∧ t = doDecode s) ∨
    (s.stage = .execute ∧ ∃ i, latchedInstr s = some i ∧ exec i s = .next t) ∨
    (s.stage = .halt ∧ t = doHalt s) := by
  rw [← stepIn_params] at h
  have hc := stepIn_cases h
  simp only [execIn_params] at hc
  exact hc

/-- R145, R99: DECODE fills the latch with the triple of IR, and moves to EXECUTE. -/
theorem doDecodeIn_eq {p : Params} (hp : p.wellFormed = true) (s : State) :
    ∃ m, mnemonicOfIn p (opcodeField s.ir) = some m ∧ doDecodeIn p s =
      { s with dec := some ⟨m, opcodeField s.ir, operandField s.ir⟩, stage := .execute, more := true } := by
  obtain ⟨m, h, hm, -⟩ := parse_some hp s.ir
  exact ⟨m, hm, by simp [doDecodeIn, doDecodeWith, h]⟩

theorem doDecode_eq (s : State) : ∃ m, mnemonicOf (opcodeField s.ir) = some m ∧ doDecode s =
    { s with dec := some ⟨m, opcodeField s.ir, operandField s.ir⟩, stage := .execute, more := true } :=
  doDecodeIn_eq params_wellFormed s

/-- What `withFetchWord` makes is what two real steps make, once the word stands at PC and the machine is about to
fetch. -/
theorem withFetchWord_is_fetch_and_decode (s : State) (nbits w : Nat) (h : s.stage = .idle ∨ s.stage = .fetch) :
    ∃ t, step { s with mem := s.mem.write s.pc.toNat (tableByte nbits w) } = .next t ∧
      step t = .next (s.withFetchWord nbits w) := by
  refine ⟨doFetch { s with mem := s.mem.write s.pc.toNat (tableByte nbits w) }, ?_, ?_⟩
  · rcases h with h | h <;> simp [step, h]
  · rw [step_decode rfl]
    rfl

end Sys2Proof.Machine
end

