-- ==== Sys2Proof/Tests/Slice0.lean ====
section
/-! SUPPORT. Tests. Expected results are the words of R96 written out by hand, and the vectors of spec/95_test_vectors.md
(named in a comment where one is used). Then, for each obligation with hypotheses, a state and operands that meet
them. -/

namespace Sys2Proof.Tests

open Sys2Proof Sys2Proof.Machine

/-! ### Decoding: one word of each row of R96, written out bit by bit -/

theorem test_decode_loadA : decode 0b00001101 = .ok (.loadA 13) := by decide
theorem test_decode_loadB : decode 0b00011110 = .ok (.loadB 14) := by decide
theorem test_decode_loadC : decode 0b00101100 = .ok (.loadC 12) := by decide
theorem test_decode_loadD : decode 0b00110001 = .ok (.loadD 1) := by decide
theorem test_decode_storeA : decode 0b01001111 = .ok (.storeA 15) := by decide
theorem test_decode_storeB : decode 0b01011010 = .ok (.storeB 10) := by decide
theorem test_decode_storeC : decode 0b01100110 = .ok (.storeC 6) := by decide
theorem test_decode_storeD : decode 0b01110000 = .ok (.storeD 0) := by decide
theorem test_decode_add : decode 0b10001011 = .ok (.add .c .d) := by decide
theorem test_decode_sub : decode 0b10011110 = .ok (.sub .d .c) := by decide
theorem test_decode_jump : decode 0b10101111 = .ok (.jump 15) := by decide
theorem test_decode_jumpNeg : decode 0b10111001 = .ok (.jumpNeg 9) := by decide
theorem test_decode_jumpZro : decode 0b11001000 = .ok (.jumpZro 8) := by decide
theorem test_decode_jumpAbv : decode 0b11010011 = .ok (.jumpAbv 3) := by decide
theorem test_decode_jumpBlw : decode 0b11101111 = .ok (.jumpBlw 15) := by decide
theorem test_decode_halt : decode 0b11110111 = .ok (.halt 7) := by decide

theorem test_decodeTableWord_add : decodeTableWord 8 0x81 = some (.add .a .b) := by decide

/-! ### Well-formedness: `Instr` has no ill-formed term (R99); the check of the latch triple refuses one -/

theorem test_instr_wellFormed : (Instr.halt 7).wellFormed = true := by decide
theorem test_decoded_wellFormed : Decoded.wellFormed opcodeMap ⟨.add, 0x8, 0x1⟩ = true := by decide
theorem test_decoded_illFormed_refused : Decoded.wellFormed opcodeMap ⟨.add, 0x9, 0x1⟩ = false := by decide
theorem test_params_wellFormed : Config.params.wellFormed = true := by decide
theorem test_params_two_mnemonics_one_opcode_refused :
    ({ Config.params with opcodeMap := fun m => if m = .jumpAbv then 0xE else opcodeMap m } : Params).wellFormed = false := by
  decide
theorem test_params_two_registers_one_code_refused :
    ({ Config.params with regCode := fun r => if r = .d then 0b10 else regCode r } : Params).wellFormed = false := by decide
theorem test_params_no_cycle_width_refused : ({ Config.params with cycleWidth := 0 } : Params).wellFormed = false := by
  decide
theorem test_memory_zero_entry_refused : Memory.wf [(3, 0)] = false := by decide
theorem test_memory_order_refused : Memory.wf [(3, 1), (2, 1)] = false := by decide
theorem test_memory_address_16_refused : Memory.wf [(16, 1)] = false := by decide

/-- Another choice of the parameters (R11): the opcode map read backwards, the register codes exchanged, stuck, refuse,
and a counter of 2 bits. -/
def otherParams : Params where
  opcodeMap m := 0xF - opcodeMap m
  regCode r := 0b11 - regCode r
  pcIncAt15 := .stuck
  reservedJumpMode := .refuse
  cycleWidth := 2

theorem test_otherParams_wellFormed : otherParams.wellFormed = true := by decide
-- 0xF - 0x8 = 0x7, and the pair A,B has the codes 11, 10
theorem test_decodeIn_other : (decodeIn otherParams 0b01111110).toOption = some (.add .a .b) := by decide
theorem test_encodeIn_other : encodeIn otherParams (.add .a .b) = 0b01111110 := by decide

/-- A word partial in its map: an opcode that no mnemonic has is refused by name in the triple (I2). -/
theorem test_partial_map_has_no_triple : parseWith (fun op => if op = 0xD then none else mnemonicOf op) 0xD3 = none := by
  decide

/-! ### One EXECUTE step of each instruction -/

/-- The state after the EXECUTE step of a word placed at PC. -/
def ran (s : State) (w : Nat) : Option State :=
  match step (s.withFetchWord 8 w) with
  | .next t => some t
  | _ => none

-- L1
theorem test_loadA : (ran { State.reset with mem := [(13, 25)] } 0x0D).map (fun t => (t.a, t.pc, t.ar)) =
    some (25, 1, 13) := by decide
-- L4: PC wraps
theorem test_loadB : (ran { State.reset with pc := 15, mem := [(3, 9)] } 0x13).map (fun t => (t.b, t.pc)) =
    some (9, 0) := by decide
-- L2: N is not set
theorem test_loadC : (ran { State.reset with pc := 5, mem := [(12, 0xFF)] } 0x2C).map (fun t => (t.c, t.pc, t.n)) =
    some (0xFF, 6, false) := by decide
-- L3: a load of its own word
theorem test_loadD : (ran State.reset 0x30).map (fun t => (t.d, t.pc)) = some (0x30, 1) := by decide
-- L5
theorem test_storeA : (ran { State.reset with pc := 3, a := 33 } 0x4F).map (fun t => (t.mem.read 15, t.pc, t.ar, t.a)) =
    some (33, 4, 15, 33) := by decide
-- L6
theorem test_storeB : (ran { State.reset with pc := 2, b := 0x80 } 0x5A).map (fun t => (t.mem.read 10, t.pc)) =
    some (0x80, 3) := by decide
-- L7: overwrites its own cell, IR stays
theorem test_storeC : (ran { State.reset with pc := 6, c := 0x77 } 0x66).map (fun t => (t.mem.read 6, t.ir, t.pc)) =
    some (0x77, 0x66, 7) := by decide
-- L8: PC wraps, and the zero byte is not listed
theorem test_storeD : (ran { State.reset with pc := 15, mem := [(0, 5)] } 0x70).map (fun t => (t.mem, t.pc)) =
    some ([(15, 0x70)], 0) := by decide
-- A1
theorem test_add_overflow : (ran { State.reset with a := 0x7F, b := 0x01 } 0x81).map (fun t => (t.a, t.v, t.z, t.n)) =
    some (0x80, true, false, true) := by decide
-- A5, one register twice
theorem test_add_same_register : (ran { State.reset with c := 0x80 } 0x8A).map (fun t => (t.c, t.v, t.z, t.n)) =
    some (0x00, true, true, false) := by decide
-- S-2
theorem test_sub : (ran { State.reset with a := 90, b := 59 } 0x91).map (fun t => (t.a, t.b, t.v, t.z, t.n)) =
    some (31, 59, false, false, false) := by decide
-- S-6
theorem test_sub_overflow : (ran { State.reset with b := 0x80 } 0x91).map (fun t => (t.a, t.v, t.z, t.n)) =
    some (0x80, true, false, true) := by decide
-- J2
theorem test_jump : (ran { State.reset with pc := 3 } 0xAF).map (fun t => (t.pc, t.ar)) = some (15, 3) := by decide
-- J4, J6
theorem test_jumpNeg_taken : (ran { State.reset with pc := 4, n := true } 0xB9).map (·.pc) = some 9 := by decide
theorem test_jumpNeg_not_taken : (ran { State.reset with pc := 15 } 0xB9).map (·.pc) = some 0 := by decide
-- J7, J8
theorem test_jumpZro_taken : (ran { State.reset with pc := 6, z := true } 0xC8).map (·.pc) = some 8 := by decide
theorem test_jumpZro_not_taken : (ran { State.reset with pc := 6, n := true } 0xC8).map (·.pc) = some 7 := by decide
-- J9
theorem test_jumpAbv : (ran { State.reset with pc := 2, v := true, z := true, n := true } 0xD3).map
    (fun t => (t.pc, t.v, t.z, t.n, t.ar)) = some (3, true, true, true, 2) := by decide
-- J10
theorem test_jumpBlw : (ran { State.reset with pc := 15 } 0xE0).map (·.pc) = some 0 := by decide
-- H3
theorem test_halt : (ran State.reset 0xF7).map (fun t => (t.stage, t.more, t.pc, t.cycles)) =
    some (.halt, false, 0, 1) := by decide

/-! ### Memory, reset and the toolchain -/

-- M3, M4, M5
theorem test_memWrite_masks : (memWrite [] 5 0x1FF).1.read 5 = 0xFF := by decide
theorem test_memRead_outside : memRead [(0, 1)] 16 = (0x00, some ⟨16⟩) := by decide
theorem test_memRead_negative : memRead [(0, 1)] (-1) = (0x00, some ⟨-1⟩) := by decide
-- R16: -1 mod 256 = 255
theorem test_memWrite_negative_value : (memWrite [] 5 (-1)).1.read 5 = 0xFF := by decide
theorem test_memWrite_outside : memWrite [(0, 1)] 20 7 = ([(0, 1)], some ⟨20⟩) := by decide
-- M1
theorem test_memory_load : Memory.load [(9, 9)] [1, 2, 3] = [(0, 1), (1, 2), (2, 3)] := by decide
-- S7: seeds over a loaded program
theorem test_hostLoad : hostLoad (.text "HALT".toList) [(13, 25), (20, 7)] State.reset =
    .loaded { State.reset with mem := [(0, 0xF0), (13, 25)] } [⟨20⟩] := by decide
-- T-E4, T-E2, T-E15, T-E8
theorem test_assemble_add : assemble "add  c , d".toList = .ok [0x8B] := by decide
theorem test_assemble_load : assemble "load_b 1110b".toList = .ok [0x1E] := by decide
theorem test_assemble_suffix : assemble "JUMP BH".toList = .ok [0xAB] := by decide
theorem test_assemble_halt : assemble "HALT 7D".toList = .ok [0xF0] := by decide
-- T-E24
theorem test_assemble_errors : assemble "JUMP 16\nLOAD_A 1\nADD X,A".toList =
    .error [(1, .rangeError), (3, .unknownRegister)] := by decide
-- T-E13, T-E17, T-E20, T-E22
theorem test_assemble_kinds : assemble "JUMP H\nJUMP\nADD A,B,C\nMOVE A,B".toList =
    .error [(1, .formatError), (2, .missingOperand), (3, .wrongRegisterCount), (4, .unknownMnemonic)] := by decide
-- log entry 15
theorem test_assemble_precedence : assemble "ADD X,A,B".toList = .error [(1, .wrongRegisterCount)] := by decide
-- T-E23
theorem test_assemble_nothing : assemble "   # note\n// note\n\n".toList = .ok [] := by decide
-- T-D2, T-D3
theorem test_disassemble : disassemble [0x9E, 0xF7] = "SUB D,C\nHALT 7D".toList := by decide

/-! ### Ports, and runs -/

-- R43: a store shows mem_we, but not at an edge with rst
theorem test_outputs_store : ((outputs false true (State.reset.withFetchWord 8 0x4F)).memWe,
    (outputs true true (State.reset.withFetchWord 8 0x4F)).memWe,
    (outputs false false (State.reset.withFetchWord 8 0x4F)).memWe) = (true, false, false) := by decide
-- R42: the byte on mem_rdata is the one a load takes, whatever the state's memory holds
theorem test_blockEdge_load : (match blockEdgeIn Config.params ⟨false, true, 0x2A⟩ (State.reset.withFetchWord 8 0x0D) with
    | .next t => some t.a
    | _ => none) = some 0x2A := by decide
-- R261: rst goes before step_req
theorem test_blockEdge_rst : blockEdgeIn Config.params ⟨true, true, 0x2A⟩ (State.reset.withFetchWord 8 0x0D) =
    .next { State.reset with mem := [(0, 0x0D)] } := rfl

/-- How a run from a state stands, and the stage it stands in. -/
def runStands (flags : List Bool) (s : State) : Option (RunEnd × Stage) :=
  match run flags s with
  | .next (e, t) => some (e, t.stage)
  | _ => none

-- R270: a cancelled run stands in FETCH, DECODE or EXECUTE
theorem test_run_cancelled : runStands [true] State.reset = some (.cancelled, .decode) := by decide
-- R270: a halted core is not cancelled
theorem test_run_halted : runStands [true] { State.reset with stage := .halt } = some (.halted, .halt) := by decide

/-! ### The hypotheses of each obligation can be met -/

/-- A machine between two instructions. -/
def atFetch : State := { State.reset with stage := .fetch }

/-- A machine that has fetched and decoded a word. -/
def atExecute (w : Nat) : State := State.reset.withFetchWord 8 w

/-- A machine that has executed HALT. -/
def atHalt : State := { State.reset with stage := .halt, more := false, mem := [(0, 0xF0)] }

theorem inv_reset : MachineInv State.reset := by constructor <;> decide
theorem inv_fetch : MachineInv atFetch := by constructor <;> decide
theorem inv_decode : MachineInv (doFetch State.reset) := by constructor <;> decide
theorem inv_execute : MachineInv (atExecute 0x81) := by constructor <;> decide
theorem inv_execute_halt : MachineInv (atExecute 0xF7) := by constructor <;> decide
theorem inv_halt : MachineInv atHalt := by constructor <;> decide

theorem witness_ExecuteStepRunsTheWordAtPc : MachineInv (atExecute 0x81) ∧ (atExecute 0x81).stage = .execute ∧
    decode ((atExecute 0x81).mem.read (atExecute 0x81).pc.toNat) = .ok (.add .a .b) :=
  ⟨inv_execute, by decide, by decide⟩

theorem witness_ThreeStepsRunTheWordAtPc :
    (State.reset.stage = .idle ∨ State.reset.stage = .fetch) ∧ (atFetch.stage = .idle ∨ atFetch.stage = .fetch) ∧
    decode (atFetch.mem.read atFetch.pc.toNat) = .ok (.loadA 0) := by decide

theorem witness_FetchReadsTheWordAtPc : atFetch.stage = .fetch := by decide

theorem witness_IdleIsFetchAndIsNeverEntered : MachineInv State.reset ∧ State.reset.stage = .idle ∧
    ∃ t, step State.reset = .next t := ⟨inv_reset, rfl, _, rfl⟩

theorem witness_DecodeFillsTheLatch : (doFetch State.reset).stage = .decode := by decide

theorem witness_DecodeFailureHaltsWithTheFaultBit :
    (fun op : Nibble => if op = 0xD then none else mnemonicOf op) ((0xD3 : Byte).extractLsb' 4 4) = none := by decide

/-- Parameters under which no mnemonic has opcode 0 (R11, I2). -/
def partialParams : Params := { Config.params with opcodeMap := fun m => if m = .loadA then 0x1 else opcodeMap m }

theorem witness_DecodeFailure_step : (doFetch State.reset).stage = .decode ∧
    ∀ m, partialParams.opcodeMap m ≠ (doFetch State.reset).ir.extractLsb' 4 4 := by
  refine ⟨by decide, fun m => ?_⟩
  cases m <;> decide

theorem witness_DecodeOfEncode_params : Config.params.wellFormed = true ∧ otherParams.wellFormed = true := by decide

theorem witness_HaltStageChangesNothing : atHalt.stage = .halt ∧ atHalt.more = false := by decide

theorem witness_StageTransitions_idle : MachineInv State.reset ∧ State.reset.stage = .idle := ⟨inv_reset, rfl⟩
theorem witness_StageTransitions_fetch : MachineInv atFetch ∧ atFetch.stage = .fetch := ⟨inv_fetch, rfl⟩
theorem witness_StageTransitions_decode : MachineInv (doFetch State.reset) ∧ (doFetch State.reset).stage = .decode :=
  ⟨inv_decode, rfl⟩
theorem witness_StageTransitions_execute : MachineInv (atExecute 0x81) ∧ (atExecute 0x81).stage = .execute ∧
    opcodeField (atExecute 0x81).ir ≠ opcodeMap .halt := ⟨inv_execute, by decide, by decide⟩
theorem witness_StageTransitions_execute_halt : MachineInv (atExecute 0xF7) ∧ (atExecute 0xF7).stage = .execute ∧
    opcodeField (atExecute 0xF7).ir = opcodeMap .halt := ⟨inv_execute_halt, by decide, by decide⟩
theorem witness_StageTransitions_halt : MachineInv atHalt ∧ atHalt.stage = .halt := ⟨inv_halt, rfl⟩

theorem witness_StepKeepsTheMachineInvariant : MachineInv (atExecute 0x81) ∧ ∃ t, step (atExecute 0x81) = .next t :=
  ⟨inv_execute, _, rfl⟩

/-- A machine with `otherParams` that has fetched and decoded the word of ADD A,B. -/
def atOtherExecute : State := doDecodeIn otherParams (doFetch { State.reset with mem := [(0, 0b01111110)] })

theorem inv_other_execute : MachineInvIn otherParams atOtherExecute := by constructor <;> decide

theorem witness_StepKeepsTheMachineInvariant_params : otherParams.wellFormed = true ∧
    MachineInvIn otherParams atOtherExecute ∧ atOtherExecute.stage = .execute ∧
    ∃ t, stepIn otherParams atOtherExecute = .next t := ⟨by decide, inv_other_execute, by decide, _, rfl⟩

/-- The defaults but for the maps and the width. -/
def wrapParams : Params := { otherParams with pcIncAt15 := .wrap, reservedJumpMode := .nop }

theorem witness_EveryStepCompletes_params : wrapParams.wellFormed = true ∧ wrapParams.pcIncAt15 = .wrap ∧
    wrapParams.reservedJumpMode = .nop ∧ MachineInvIn wrapParams State.reset :=
  ⟨by decide, rfl, rfl, by constructor <;> decide⟩

theorem witness_ResetEstablishesTheMachineInvariant : (atExecute 0x81).mem.wf = true := by decide

theorem witness_OnlyExecuteChangesProgramState : atFetch.stage ≠ .execute ∧ ∃ t, step atFetch = .next t :=
  ⟨by decide, _, rfl⟩

theorem witness_FlagsAreWritten_add : (atExecute 0x81).stage = .execute ∧
    latchedInstr (atExecute 0x81) = some (.add .a .b) ∧ ∃ t, step (atExecute 0x81) = .next t :=
  ⟨by decide, by decide, _, rfl⟩
theorem witness_FlagsAreWritten_sub : (atExecute 0x9F).stage = .execute ∧
    latchedInstr (atExecute 0x9F) = some (.sub .d .d) ∧ ∃ t, step (atExecute 0x9F) = .next t :=
  ⟨by decide, by decide, _, rfl⟩
theorem witness_FlagsAreWritten_other : (∀ r q, latchedInstr (atExecute 0xA0) ≠ some (.add r q) ∧
    latchedInstr (atExecute 0xA0) ≠ some (.sub r q)) ∧ ∃ t, step (atExecute 0xA0) = .next t := by
  have h : latchedInstr (atExecute 0xA0) = some (.jump 0) := by decide
  exact ⟨fun r q => by simp [h], _, rfl⟩

/-- For the statements whose only hypothesis is that a step answers a next state. -/
theorem witness_a_step_answers : (∃ t, step State.reset = .next t) ∧ (∃ t, step (doFetch State.reset) = .next t) ∧
    (∃ t, step (atExecute 0x4F) = .next t) ∧ ∃ t, step atHalt = .next t := ⟨⟨_, rfl⟩, ⟨_, rfl⟩, ⟨_, rfl⟩, _, rfl⟩

theorem witness_PcIncrementUnderBothModes : (14 : Addr).toNat < 15 ∧ (0 : Addr).toNat < 15 ∧
    ({ State.reset with pc := 15 } : State).pc = 15 := by decide

theorem witness_PcIncrement_stuck : otherParams.pcIncAt15 = .stuck ∧
    ({ otherParams with reservedJumpMode := .nop } : Params).pcIncAt15 = .stuck ∧
    ({ otherParams with reservedJumpMode := .nop } : Params).reservedJumpMode = .nop ∧
    ({ State.reset with pc := 15, n := true, z := true } : State).pc = 15 ∧
    ({ State.reset with pc := 15, n := true, z := true } : State).n = true ∧
    ({ State.reset with pc := 15, n := true, z := true } : State).z = true ∧
    ({ State.reset with pc := 15 } : State).n = false ∧ ({ State.reset with pc := 15 } : State).z = false ∧
    Instr.loadA 3 ∈ [Instr.loadA 3, .loadB 3, .loadC 3, .loadD 3, .storeA 3, .storeB 3, .storeC 3, .storeD 3,
      .add .a .b, .sub .a .b] ∧ Instr.jumpBlw 3 ∈ [Instr.jumpAbv 3, .jumpBlw 3] := by decide

theorem witness_RefuseModeRefusesReservedJumps : otherParams.reservedJumpMode = .refuse := rfl

theorem witness_LoadLeavesEverythingElse : (Instr.loadD 15, Reg.d) ∈
      [(Instr.loadA 15, Reg.a), (.loadB 15, .b), (.loadC 15, .c), (.loadD 15, .d)] ∧
    ∃ t, exec (.loadD 15) State.reset = .next t := ⟨by decide, _, rfl⟩

theorem witness_Store : (atExecute 0x4F).mem.wf = true ∧ (Instr.storeA 15, Reg.a) ∈
      [(Instr.storeA 15, Reg.a), (.storeB 15, .b), (.storeC 15, .c), (.storeD 15, .d)] ∧
    ∃ t, exec (.storeA 15) (atExecute 0x4F) = .next t := ⟨by decide, by decide, _, rfl⟩

theorem witness_StoreIsSeenByTheNextFetch : State.reset.mem.wf = true ∧ State.reset.pc + 1 = 1 ∧
    (Instr.storeD 1, Reg.d) ∈ [(Instr.storeA 1, Reg.a), (.storeB 1, .b), (.storeC 1, .c), (.storeD 1, .d)] := by decide

theorem witness_AluFollowsTheSignedRule :
    (128 : Int) = (match AluOp.add with
      | .add => (0x7F : Byte).toInt + (0x01 : Byte).toInt
      | .sub => (0x7F : Byte).toInt - (0x01 : Byte).toInt) ∧
    (-128 : Int) = (if (128 : Int) > 127 then 128 - 256 else if (128 : Int) < -128 then 128 + 256 else 128) := by decide

theorem witness_AddWritesSumAndFlags : (0x80 : Byte) = getReg .a { State.reset with a := 0x7F, b := 0x01 } +
    getReg .b { State.reset with a := 0x7F, b := 0x01 } := by decide
theorem witness_SubWritesDifferenceAndFlags : (0xFF : Byte) = getReg .a { State.reset with b := 0x01 } -
    getReg .b { State.reset with b := 0x01 } := by decide

theorem witness_ArithmeticLeavesEverythingElse : Instr.sub .d .a ∈ [Instr.add .d .a, .sub .d .a] ∧
    ∃ t, exec (.sub .d .a) State.reset = .next t := ⟨by decide, _, rfl⟩

theorem witness_ConditionalJumps : ({ State.reset with n := true } : State).n = true ∧ State.reset.n = false ∧
    ({ State.reset with z := true } : State).z = true ∧ State.reset.z = false := by decide

theorem witness_JumpsAndHaltLeaveEverythingElse :
    Instr.halt 7 ∈ [Instr.jump 7, .jumpNeg 7, .jumpZro 7, .jumpAbv 7, .jumpBlw 7, .halt 7] ∧
    ∃ t, exec (.halt 7) State.reset = .next t := ⟨by decide, _, rfl⟩

theorem witness_MemoryBounds : ((0 : Int) ≤ 0 ∧ (0 : Int) < 16) ∧ ((0 : Int) ≤ 15 ∧ (15 : Int) < 16) ∧
    (16 : Int) ≤ 16 ∧ (-1 : Int) < 0 ∧ (0 : Nat) < 16 ∧ (15 : Nat) < 16 ∧
    Memory.wf [(0, 1), (15, 2)] = true := by decide

theorem witness_MemoryChanges_write : busRequest (atExecute 0x4F) = .write 15 0 := by decide
theorem witness_MemoryChanges_read : busRequest State.reset = .read 0 ∧ State.reset.stage ≠ .execute := by decide
theorem witness_MemoryChanges_load : (atExecute 0x3F).stage = .execute ∧
    latchedInstr (atExecute 0x3F) = some (.loadD 15) ∧ busRequest (atExecute 0x3F) = .read 15 ∧
    (Instr.loadD 15, Reg.d) ∈ [(Instr.loadA 15, Reg.a), (.loadB 15, .b), (.loadC 15, .c), (.loadD 15, .d)] := by decide
theorem witness_MemoryChanges_none : ∀ x w, busRequest (doFetch State.reset) ≠ .write x w := by
  have h : busRequest (doFetch State.reset) = .idle := by decide
  simp [h]

theorem witness_MemoryPort_load : (atExecute 0x3F).stage = .execute ∧ latchedInstr (atExecute 0x3F) = some (.loadD 15) ∧
    Instr.loadD 15 ∈ [Instr.loadA 15, .loadB 15, .loadC 15, .loadD 15] := by decide
theorem witness_MemoryPort_store : (atExecute 0x50).stage = .execute ∧
    latchedInstr (atExecute 0x50) = some (.storeB 0) ∧
    (Instr.storeB 0, Reg.b) ∈ [(Instr.storeA 0, Reg.a), (.storeB 0, .b), (.storeC 0, .c), (.storeD 0, .d)] := by decide
theorem witness_MemoryPort_other : (atExecute 0xF0).stage = .execute ∧ latchedInstr (atExecute 0xF0) = some (.halt 0) ∧
    (Instr.halt 0).mnemonic ∈
      [Mnemonic.add, .sub, .jump, .jumpNeg, .jumpZro, .jumpAbv, .jumpBlw, .halt] := by decide

theorem witness_BlockAndMemory_load :
    ∃ t, blockEdgeIn Config.params ⟨false, true, 0x2A⟩ (atExecute 0x0D) = .next t := ⟨_, rfl⟩
theorem witness_BlockAndMemory_store :
    ∃ t, blockEdgeIn otherParams ⟨false, true, 0x00⟩ atOtherExecute = .next t := ⟨_, rfl⟩

theorem witness_HostLoadResetsThenCopies : assemble "HALT".toList = .ok [0xF0] ∧
    assemble "MOVE".toList = .error [(1, .unknownMnemonic)] := by decide

theorem witness_HostLoad_addresses : (0 : Nat) < 16 ∧ (15 : Nat) < 16 := by decide

theorem witness_LaterSeedsOverrideEarlierOnes : Memory.wf [(15, 7)] = true ∧ 15 < 16 := by decide

theorem witness_SnapshotShowsTheState : State.reset.mem.wf = true ∧
    snapshot State.reset = snapshot State.reset := by decide

theorem witness_RunsEnd_goes_on : ∃ t, step State.reset = .next t ∧ t.more = true := ⟨_, rfl, by decide⟩
theorem witness_RunsEnd_ends : ∃ t, step (atExecute 0xF7) = .next t ∧ t.more = false := ⟨_, rfl, by decide⟩
theorem witness_RunsEnd_invariant : MachineInv State.reset ∧ MachineInv (atExecute 0xF7) := ⟨inv_reset, inv_execute_halt⟩
theorem witness_RunsEnd_halted : runStands [false, true] (atExecute 0xF7) = some (.halted, .halt) := by decide
theorem witness_RunsEnd_cancelled : runStands [false, true, false] State.reset = some (.cancelled, .execute) := by decide
theorem witness_RunsEnd_running : runStands [false, false] State.reset = some (.running, .fetch) := by decide

theorem witness_AddressLiterals_value : (2, 'b') ∈ [(2, 'B'), (2, 'b'), (16, 'H'), (16, 'h'), (10, 'D'), (10, 'd')] ∧
    [0, 1, 1, 1, 1] ≠ ([] : List Nat) ∧ (∀ d ∈ [0, 1, 1, 1, 1], d < 2) ∧
    15 = [0, 1, 1, 1, 1].foldl (fun acc d => acc * 2 + d) 0 := by decide
theorem witness_AddressLiterals_range : (16, 'H') ∈ [(2, 'B'), (2, 'b'), (16, 'H'), (16, 'h'), (10, 'D'), (10, 'd')] ∧
    (∀ d ∈ [1, 0], d < 16) ∧ 16 = [1, 0].foldl (fun acc d => acc * 16 + d) 0 := by decide
theorem witness_AddressLiterals_decimal : (∀ d ∈ [1, 5], d < 10) ∧ 15 = [1, 5].foldl (fun acc d => acc * 10 + d) 0 ∧
    16 = [1, 6].foldl (fun acc d => acc * 10 + d) 0 := by decide
theorem witness_AddressLiterals_format : ∃ c ∈ ['1', '2'], ∀ d, d < 2 → c ≠ d.digitChar ∧ c ≠ d.digitChar.toUpper :=
  ⟨'2', by decide, by decide⟩

/-- The errors of a text, as the obligation about all-or-nothing assembly computes them. -/
def lineErrors (text : List Char) : AssemblyError :=
  ((splitAtChar '\n' text).zipIdx 1).filterMap (fun (line, number) =>
    match assembleLine line with
    | some (.error e) => some (number, e)
    | _ => none)

theorem witness_AssemblyIsAllOrNothing : lineErrors "HALT\n# end".toList = [] ∧
    lineErrors "HALT\nJUMP 16".toList = [(2, .rangeError)] := by decide

theorem witness_AssembledTextRoundTrips : assemble "ADD A,B\nHALT 7D".toList = .ok [0x81, 0xF0] := by decide

end Sys2Proof.Tests
end

section
/-! Proofs of the statements about the scope of the model (00_scope.md R11): the decoder undoes the encoder under every
well-formed choice of the parameters, and the maps among the parameters change no instruction's meaning. -/

namespace Sys2Proof

/-- The converse of `operandIn_ofPartsIn`: only ADD and SUB read their operand through the register codes, and there
the one-to-one code map gives both registers back. -/
theorem ofPartsIn_operandIn {p : Params} (hp : p.wellFormed = true) (i : Instr) :
    Instr.ofPartsIn p i.mnemonic (i.operandIn p) = i := by
  cases i with
  | add reg1 reg2 | sub reg1 reg2 =>
    simp [Instr.ofPartsIn, Instr.mnemonic, Instr.operandIn, regPairIn, regOfIn_regCode hp]
  | _ => rfl

theorem decodeIn_encodeIn {p : Params} (hp : p.wellFormed = true) (i : Instr) :
    decodeIn p (encodeIn p i) = .ok i := by
  simp [decodeIn, encodeIn, mnemonicOfIn_opcodeMap hp, ofPartsIn_operandIn hp]

/-- Settles O1: the fields of a word are the opcode and the operand it was made of, and both one-to-one maps undo. -/
theorem decodeOfEncodeIsTheInstruction : Obligations.DecodeOfEncodeIsTheInstruction :=
  ⟨fun _ hp i => decodeIn_encodeIn hp i, fun i => decodeIn_encodeIn params_wellFormed i⟩

namespace Machine

/-- R11: an EXECUTE step reads the PC mode, the reserved-jump mode and the counter's width, and neither map. -/
theorem execIn_with_maps (p : Params) (map : Mnemonic → Nibble) (code : Reg → BitVec 2) (i : Instr) (s : State) :
    execIn { p with opcodeMap := map, regCode := code } i s = execIn p i s := by
  cases i <;> rfl

/-- Settles O59, from the laws of the parametric machine at the defaults. -/
theorem defaultMachineIsTheParametricOne : Obligations.DefaultMachineIsTheParametricOne :=
  ⟨stepIn_params, execIn_params, execIn_with_maps⟩

end Machine

end Sys2Proof
end

section
/-! What a step does, said once for all instructions: an EXECUTE step is a data path, the value PC takes, and an end, and
the block's step is the same but for the memory. -/

namespace Sys2Proof.Machine

/-- A next state changed by a function, and every other answer as it is. -/
def mapNext {α β : Type} (f : α → β) : Host.Outcome α Fault Refusal → Host.Outcome β Fault Refusal
  | .next a => .next (f a)
  | .fault r => .fault r
  | .refused r => .refused r

section
variable {α β γ : Type} (f : α → β) (g : β → γ)

@[simp] theorem mapNext_next (a : α) : mapNext f (.next a) = .next (f a) := rfl
@[simp] theorem mapNext_fault (r : Fault) : mapNext f (.fault r) = .fault r := rfl
@[simp] theorem mapNext_refused (r : Refusal) : mapNext f (.refused r) = .refused r := rfl

theorem mapNext_mapNext (o : Host.Outcome α Fault Refusal) :
    mapNext g (mapNext f o) = mapNext (fun a => g (f a)) o := by cases o <;> rfl

theorem mapNext_eq_next {f : α → β} {o : Host.Outcome α Fault Refusal} {b : β} :
    mapNext f o = .next b ↔ ∃ a, o = .next a ∧ f a = b := by cases o <;> simp

theorem mapNext_eq_fault {f : α → β} {o : Host.Outcome α Fault Refusal} {r : Fault} :
    mapNext f o = .fault r ↔ o = .fault r := by cases o <;> simp

theorem mapNext_eq_refused {f : α → β} {o : Host.Outcome α Fault Refusal} {r : Refusal} :
    mapNext f o = .refused r ↔ o = .refused r := by cases o <;> simp

end

/-! ### The EXECUTE step in three parts -/

/-- R92, R93, R143, R144: what an EXECUTE step does to registers, flags, AR and memory, before PC, counter and stage. -/
def dataPath : Instr → State → State
  | .loadA x => loadOperand .a x
  | .loadB x => loadOperand .b x
  | .loadC x => loadOperand .c x
  | .loadD x => loadOperand .d x
  | .storeA x => storeOperand .a x
  | .storeB x => storeOperand .b x
  | .storeC x => storeOperand .c x
  | .storeD x => storeOperand .d x
  | .add r q => aluOperands .add r q
  | .sub r q => aluOperands .sub r q
  | _ => id

/-- R26: `pc_inc(pc)` as an answer: the fault where it is stuck. -/
def pcNextIn (p : Params) (s : State) : Host.Outcome Addr Fault Refusal :=
  match pcInc p.pcIncAt15 s.pc with
  | some q => .next q
  | none => .fault .pcIncStuck

/-- R25, R200 to R205, R220: the value PC takes in an EXECUTE step, or why the step has no next state. -/
def pcAfterIn (p : Params) (i : Instr) (s : State) : Host.Outcome Addr Fault Refusal :=
  match i with
  | .jump x => .next x
  | .jumpNeg x => if s.n then .next x else pcNextIn p s
  | .jumpZro x => if s.z then .next x else pcNextIn p s
  | .jumpAbv _ => if p.reservedJumpMode = .nop then pcNextIn p s else .refused (.reservedJump .jumpAbv)
  | .jumpBlw _ => if p.reservedJumpMode = .nop then pcNextIn p s else .refused (.reservedJump .jumpBlw)
  | .halt _ => .next s.pc
  | _ => pcNextIn p s

/-- R147, R220: the end of an EXECUTE step that leaves PC at `q`. -/
def endIn (p : Params) (i : Instr) (s : State) (q : Addr) : State :=
  match i with
  | .halt _ => retireHaltIn p { s with pc := q }
  | _ => retireIn p { s with pc := q }

theorem retireNextIn_eq (p : Params) (s : State) :
    retireNextIn p s = mapNext (fun q => retireIn p { s with pc := q }) (pcNextIn p s) := by
  unfold retireNextIn pcNextIn
  cases pcInc p.pcIncAt15 s.pc <;> rfl

theorem jumpIfIn_eq (p : Params) (cond : Bool) (x : Addr) (s : State) :
    jumpIfIn p cond x s =
      mapNext (fun q => retireIn p { s with pc := q }) (if cond then .next x else pcNextIn p s) := by
  cases cond
  · exact retireNextIn_eq p s
  · rfl

theorem reservedJumpIn_eq (p : Params) (m : Mnemonic) (s : State) :
    reservedJumpIn p m s = mapNext (fun q => retireIn p { s with pc := q })
      (if p.reservedJumpMode = .nop then pcNextIn p s else .refused (.reservedJump m)) := by
  cases h : p.reservedJumpMode
  · rw [reservedJumpIn_nop h, retireNextIn_eq, if_pos rfl]
  · rw [reservedJumpIn_refuse h, if_neg (by decide), mapNext_refused]

theorem pcNextIn_congr {p : Params} {s t : State} (h : s.pc = t.pc) : pcNextIn p s = pcNextIn p t := by
  simp [pcNextIn, h]

/-- R24, R25, R200: the value PC takes depends on PC and the two flags that jumps read, and on nothing else. -/
theorem pcAfterIn_congr {p : Params} {s t : State} (hpc : s.pc = t.pc) (hn : s.n = t.n) (hz : s.z = t.z)
    (i : Instr) : pcAfterIn p i s = pcAfterIn p i t := by
  cases i <;> simp only [pcAfterIn, pcNextIn_congr hpc, hpc, hn, hz]

@[simp] theorem loadOperand_pc (r : Reg) (x : Addr) (s : State) : (loadOperand r x s).pc = s.pc := by
  simp [loadOperand_eq]
@[simp] theorem storeOperand_pc (r : Reg) (x : Addr) (s : State) : (storeOperand r x s).pc = s.pc := rfl
@[simp] theorem aluOperands_pc (op : AluOp) (r q : Reg) (s : State) : (aluOperands op r q s).pc = s.pc := by
  simp [aluOperands_eq]

/-- R147: every EXECUTE step is its data path, ended at the PC value it takes. -/
theorem execIn_eq (p : Params) (i : Instr) (s : State) :
    execIn p i s = mapNext (endIn p i (dataPath i s)) (pcAfterIn p i s) := by
  cases i with
  | jump x | halt u => rfl
  | jumpNeg x | jumpZro x => exact jumpIfIn_eq p _ x s
  | jumpAbv x | jumpBlw x => exact reservedJumpIn_eq p _ s
  | loadA x | loadB x | loadC x | loadD x | storeA x | storeB x | storeC x | storeD x | add r q | sub r q =>
    refine (retireNextIn_eq p _).trans ?_
    rw [pcNextIn_congr (t := s) (by simp)]
    rfl

/-! ### What the three parts leave unchanged -/

/-- The data path of an EXECUTE step is that of a load, a store or the ALU, or there is none. -/
theorem dataPath_cases (i : Instr) (s : State) :
    (∃ r x, dataPath i s = loadOperand r x s) ∨ (∃ r x, dataPath i s = storeOperand r x s) ∨
    (∃ op r q, (i = .add r q ∨ i = .sub r q) ∧ dataPath i s = aluOperands op r q s) ∨ dataPath i s = s := by
  cases i with
  | loadA x | loadB x | loadC x | loadD x => exact .inl ⟨_, x, rfl⟩
  | storeA x | storeB x | storeC x | storeD x => exact .inr (.inl ⟨_, x, rfl⟩)
  | add r q => exact .inr (.inr (.inl ⟨_, r, q, .inl rfl, rfl⟩))
  | sub r q => exact .inr (.inr (.inl ⟨_, r, q, .inr rfl, rfl⟩))
  | jump x | jumpNeg x | jumpZro x | jumpAbv x | jumpBlw x | halt x => exact .inr (.inr (.inr rfl))

/-- R31, R33, R36: no data path reaches IR, the latch or the fault indicator. -/
theorem dataPath_hiddenKept (i : Instr) (s : State) : HiddenKept s (dataPath i s) := by
  obtain ⟨r, x, h⟩ | ⟨r, x, h⟩ | ⟨op, r, q, -, h⟩ | h := dataPath_cases i s
  · simp [HiddenKept, h, loadOperand_eq]
  · simp [HiddenKept, h, storeOperand_eq]
  · simp [HiddenKept, h, aluOperands_eq]
  · simp [HiddenKept, h]

/-- R37: no data path reaches the counter. -/
@[simp] theorem dataPath_cycles (i : Instr) (s : State) : (dataPath i s).cycles = s.cycles := by
  obtain ⟨r, x, h⟩ | ⟨r, x, h⟩ | ⟨op, r, q, -, h⟩ | h := dataPath_cases i s
  · simp [h, loadOperand_eq]
  · simp [h, storeOperand_eq]
  · simp [h, aluOperands_eq]
  · rw [h]

/-- R60: every data path keeps memory canonical. -/
theorem dataPath_mem_wf (i : Instr) {s : State} (hm : s.mem.wf = true) : (dataPath i s).mem.wf = true := by
  obtain ⟨r, x, h⟩ | ⟨r, x, h⟩ | ⟨op, r, q, -, h⟩ | h := dataPath_cases i s
  · simpa [h, loadOperand_eq] using hm
  · simpa [h, storeOperand_eq] using Memory.wf_write hm _ x.isLt
  · simpa [h, aluOperands_eq] using hm
  · rwa [h]

/-- R28: only the data paths of ADD and SUB reach the flags. -/
theorem dataPath_flagsKept {i : Instr} (hi : ∀ r q, i ≠ .add r q ∧ i ≠ .sub r q) (s : State) :
    FlagsKept s (dataPath i s) := by
  obtain ⟨r, x, h⟩ | ⟨r, x, h⟩ | ⟨op, r, q, hop, -⟩ | h := dataPath_cases i s
  · simp [FlagsKept, h, loadOperand_eq]
  · simp [FlagsKept, h, storeOperand_eq]
  · exact absurd hop (by simp [hi r q])
  · simp [FlagsKept, h]

section
variable (p : Params) (i : Instr) (s : State) (q : Addr)

@[simp] theorem endIn_v : (endIn p i s q).v = s.v := by cases i <;> rfl
@[simp] theorem endIn_z : (endIn p i s q).z = s.z := by cases i <;> rfl
@[simp] theorem endIn_n : (endIn p i s q).n = s.n := by cases i <;> rfl
@[simp] theorem endIn_ir : (endIn p i s q).ir = s.ir := by cases i <;> rfl
@[simp] theorem endIn_dec : (endIn p i s q).dec = s.dec := by cases i <;> rfl
@[simp] theorem endIn_fault : (endIn p i s q).fault = s.fault := by cases i <;> rfl
@[simp] theorem endIn_mem : (endIn p i s q).mem = s.mem := by cases i <;> rfl
@[simp] theorem endIn_cycles : (endIn p i s q).cycles = (s.cycles + 1) % 2 ^ p.cycleWidth := by cases i <;> rfl
@[simp] theorem getReg_endIn (r : Reg) : getReg r (endIn p i s q) = getReg r s := by cases i <;> cases r <;> rfl

/-- R147, R149, R220: an EXECUTE step ends in FETCH and returns true, or that of HALT in HALT and returns false. -/
theorem endIn_stage :
    (endIn p i s q).stage = .fetch ∧ (endIn p i s q).more = true ∨
    (endIn p i s q).stage = .halt ∧ (endIn p i s q).more = false := by
  cases i with
  | halt u => exact .inr ⟨rfl, rfl⟩
  | _ => exact .inl ⟨rfl, rfl⟩

end

/-! ### What a step of a machine with a well-formed map can do -/

/-- The next states of a step: those of R142 (from IDLE also, R141), R145, R147 and R148. -/
inductive StepShape (p : Params) (s : State) : State → Prop
  | fetch (hs : s.stage = .idle ∨ s.stage = .fetch) :
      StepShape p s (doFetchFrom (s.mem.read s.pc.toNat) s)
  | decode (hs : s.stage = .decode) (d : Decoded) (hd : parseWith (mnemonicOfIn p) s.ir = some d) :
      StepShape p s { s with dec := some d, stage := .execute, more := true }
  | execute (hs : s.stage = .execute) (i : Instr) (hi : latchedInstrIn p s = some i) (q : Addr)
      (hq : pcAfterIn p i s = .next q) : StepShape p s (endIn p i (dataPath i s) q)
  | halt (hs : s.stage = .halt) : StepShape p s (doHalt s)

theorem stepIn_shape {p : Params} (hp : p.wellFormed = true) {s t : State} (h : stepIn p s = .next t) :
    StepShape p s t := by
  obtain ⟨hs, rfl⟩ | ⟨hs, rfl⟩ | ⟨hs, i, hi, he⟩ | ⟨hs, rfl⟩ := stepIn_cases h
  · rw [doFetch_eq]
    exact .fetch hs
  · obtain ⟨m, hm, he⟩ := doDecodeIn_eq hp s
    rw [he]
    exact .decode hs _ (by simp [parseWith, hm])
  · rw [execIn_eq, mapNext_eq_next] at he
    obtain ⟨q, hq, rfl⟩ := he
    exact .execute hs i hi q hq
  · exact .halt hs

/-- Conversely, the step answers each of these states. -/
theorem StepShape.stepIn_eq {p : Params} {s t : State} (h : StepShape p s t) : stepIn p s = .next t := by
  cases h with
  | fetch hs =>
    rw [← doFetch_eq]
    exact hs.elim (stepIn_idle p) (stepIn_fetch p)
  | decode hs d hd => simp [stepIn_decode p hs, doDecodeIn, doDecodeWith, hd]
  | execute hs i hi q hq => rw [stepIn_execute hs hi, execIn_eq, hq, mapNext_next]
  | halt hs => exact stepIn_halt p hs

theorem step_shape {s t : State} (h : step s = .next t) : StepShape Config.params s t :=
  stepIn_shape params_wellFormed (by rwa [stepIn_params])

end Sys2Proof.Machine
end

section
/-! Proofs of the statements about the state (10_state.md). -/

namespace Sys2Proof.Machine

/-! ### The invariant -/

/-- R149: where no word is in flight, in FETCH and in HALT, the invariant says little. -/
theorem machineInvIn_of_rest {p : Params} {t : State}
    (hstage : t.stage = .fetch ∧ t.more = true ∨ t.stage = .halt ∧ t.more = false)
    (hmem : t.mem.wf = true) (hfault : t.fault = false) (hcycles : t.cycles < 2 ^ p.cycleWidth) :
    MachineInvIn p t where
  memory := hmem
  decodeStage hc := by simp [hc] at hstage
  executeStage hc := by simp [hc] at hstage
  latch hc := by simp [hc] at hstage
  more := by rcases hstage with ⟨h1, h2⟩ | ⟨h1, h2⟩ <;> simp [h1, h2]
  noFault := hfault
  idleStage hc := by simp [hc] at hstage
  counter := hcycles

theorem StepShape.machineInvIn {p : Params} {s t : State} (hinv : MachineInvIn p s) (h : StepShape p s t) :
    MachineInvIn p t := by
  cases h with
  | fetch hs =>
    exact { memory := hinv.memory, decodeStage := fun _ => ⟨rfl, rfl⟩, executeStage := nofun, latch := nofun
            more := by simp, noFault := hinv.noFault, idleStage := nofun, counter := hinv.counter }
  | decode hs d hd =>
    exact { memory := hinv.memory, decodeStage := nofun, executeStage := fun _ => hinv.decodeStage hs
            latch := fun _ => hd.symm, more := by simp, noFault := hinv.noFault, idleStage := nofun
            counter := hinv.counter }
  | execute hs i hi q hq =>
    obtain ⟨-, -, hfault⟩ := dataPath_hiddenKept i s
    refine machineInvIn_of_rest (endIn_stage p i _ q) ?_ ?_ ?_
    · simpa using dataPath_mem_wf i hinv.memory
    · rw [endIn_fault, hfault, hinv.noFault]
    · rw [endIn_cycles]
      exact Nat.mod_lt _ (Nat.two_pow_pos _)
  | halt hs => exact machineInvIn_of_rest (.inr ⟨hs, rfl⟩) hinv.memory hinv.noFault hinv.counter

/-- Settles O14, by the next states that a step can have. -/
theorem stepKeepsTheMachineInvariant : Obligations.StepKeepsTheMachineInvariant :=
  ⟨fun _ _ _ hp hinv h => (stepIn_shape hp h).machineInvIn hinv,
   fun _ _ hinv h => (step_shape h).machineInvIn hinv⟩

/-! ### Single fields -/

/-- Settles O17: an EXECUTE step leaves the flags of its data path, and only that of ADD and SUB reaches them. -/
theorem flagsAreWrittenOnlyByAddAndSub : Obligations.FlagsAreWrittenOnlyByAddAndSub := by
  intro s t h
  cases step_shape h with
  | fetch hs | decode hs | halt hs =>
    exact ⟨fun r q hc => by simp_all, fun r q hc => by simp_all, fun _ => ⟨rfl, rfl, rfl⟩⟩
  | execute hs i hi q hq =>
    have hlatch : latchedInstr s = some i := hi
    refine ⟨fun r q _ hc => ?_, fun r q _ hc => ?_, fun hne => ?_⟩
    · obtain rfl : i = .add r q := Option.some.inj (hlatch.symm.trans hc)
      simp [dataPath, aluOperands_eq]
    · obtain rfl : i = .sub r q := Option.some.inj (hlatch.symm.trans hc)
      simp [dataPath, aluOperands_eq]
    · have hi' : ∀ r q, i ≠ .add r q ∧ i ≠ .sub r q := by simpa [hs, hlatch] using hne
      simpa [FlagsKept] using dataPath_flagsKept hi' s

/-- Settles O18, by the next states that a step can have. -/
theorem instructionRegisterIsWrittenOnlyByFetch : Obligations.InstructionRegisterIsWrittenOnlyByFetch := by
  refine ⟨fun s t h => ?_, rfl⟩
  cases step_shape h with
  | fetch hs => simp [hs]
  | decode hs | halt hs => simp [hs]
  | execute hs i hi q hq => simpa [hs] using (dataPath_hiddenKept i s).1

/-- Settles O20: under the default map every word decodes, so no step is an InvalidInstructionFault. -/
theorem faultBitIsNeverSetByAStep : Obligations.FaultBitIsNeverSetByAStep := by
  refine ⟨fun s t h => ?_, cpuReset_fault⟩
  cases step_shape h with
  | fetch hs | decode hs | halt hs => rfl
  | execute hs i hi q hq =>
    obtain ⟨-, -, hfault⟩ := dataPath_hiddenKept i s
    rw [endIn_fault, hfault]

theorem StepShape.cycles {p : Params} {s t : State} (h : StepShape p s t) :
    t.cycles = if s.stage = .execute then (s.cycles + 1) % 2 ^ p.cycleWidth else s.cycles := by
  cases h with
  | fetch hs => rcases hs with hs | hs <;> simp [hs]
  | decode hs | halt hs => simp [hs]
  | execute hs i hi q hq => simp [hs]

/-- Settles O21: the end of every EXECUTE step counts it, and no other stage reaches the counter. -/
theorem cyclesCountExecuteSteps : Obligations.CyclesCountExecuteSteps :=
  ⟨fun _ _ _ hp h => (stepIn_shape hp h).cycles, fun _ _ h => (step_shape h).cycles⟩

/-- R26, R16: below 15 the 4-bit successor is the plain one. -/
theorem toNat_add_one {x : Addr} (h : x.toNat < 15) : (x + 1).toNat = x.toNat + 1 := by
  bv_omega

/-- Settles O23: the instructions that end by `pc_inc` are stuck at 15, and the others do not evaluate it. -/
theorem pcIncrementUnderBothModes : Obligations.PcIncrementUnderBothModes := by
  refine ⟨fun x => ⟨x + 1, rfl, by simp⟩, fun x hx => ⟨x + 1, ?_, toNat_add_one hx⟩, rfl, fun p x r q s hp hs => ?_⟩
  · have hne : x ≠ 15 := by bv_omega
    rw [pcInc_stuck, if_neg hne]
  have hstuck : pcNextIn p s = .fault .pcIncStuck := by simp [pcNextIn, hp, hs, pcInc_stuck]
  refine ⟨?_, fun hmode => ?_, fun hn => ?_, fun hz => ?_, ⟨_, rfl⟩, fun hn => ?_, fun hz => ?_, ⟨_, rfl⟩⟩
  · simp [execIn_eq, pcAfterIn, hstuck]
  · simp [execIn_eq, pcAfterIn, hstuck, hmode]
  · simp [execIn_eq, pcAfterIn, hstuck, hn]
  · simp [execIn_eq, pcAfterIn, hstuck, hz]
  · simp [execIn_eq, pcAfterIn, hn, Completes]
  · simp [execIn_eq, pcAfterIn, hz, Completes]

/-! ### State that nothing reads (R29, R32, R36, R37, R39) -/

/-- The states are the same but for V, AR, `fault` and the counter. -/
def SameButUnread (s t : State) : Prop := { s with v := t.v, ar := t.ar, fault := t.fault, cycles := t.cycles } = t

section
variable {s t : State}

theorem SameButUnread.getReg (h : SameButUnread s t) (r : Reg) : getReg r s = getReg r t := by
  rw [← h]
  cases r <;> rfl

theorem SameButUnread.setReg (h : SameButUnread s t) (r : Reg) (w : Byte) :
    SameButUnread (setReg r w s) (setReg r w t) := by
  rw [← h]
  cases r <;> rfl

theorem SameButUnread.setFlags (h : SameButUnread s t) (res : AluResult) :
    SameButUnread (setFlags res s) (setFlags res t) := by
  rw [← h]
  rfl

theorem SameButUnread.loadOperand (h : SameButUnread s t) (r : Reg) (x : Addr) :
    SameButUnread (loadOperand r x s) (loadOperand r x t) := by
  rw [← h]
  cases r <;> rfl

theorem SameButUnread.storeOperand (h : SameButUnread s t) (r : Reg) (x : Addr) :
    SameButUnread (storeOperand r x s) (storeOperand r x t) := by
  rw [← h]
  cases r <;> rfl

theorem SameButUnread.aluOperands (h : SameButUnread s t) (op : AluOp) (r q : Reg) :
    SameButUnread (aluOperands op r q s) (aluOperands op r q t) := by
  simp only [aluOperands_eq, h.getReg]
  exact (h.setReg r _).setFlags _

theorem SameButUnread.dataPath (h : SameButUnread s t) (i : Instr) :
    SameButUnread (dataPath i s) (dataPath i t) := by
  cases i with
  | loadA x | loadB x | loadC x | loadD x => exact h.loadOperand _ x
  | storeA x | storeB x | storeC x | storeD x => exact h.storeOperand _ x
  | add r q | sub r q => exact h.aluOperands _ r q
  | jump x | jumpNeg x | jumpZro x | jumpAbv x | jumpBlw x | halt x => exact h

theorem SameButUnread.endIn (h : SameButUnread s t) (p : Params) (i : Instr) (q : Addr) :
    SameButUnread (endIn p i s q) (endIn p i t q) := by
  rw [← h]
  cases i <;> rfl

theorem SameButUnread.pcAfterIn (h : SameButUnread s t) (p : Params) (i : Instr) :
    pcAfterIn p i s = pcAfterIn p i t := by
  rw [← h]
  exact pcAfterIn_congr rfl rfl rfl i

/-- Two states that are the same but for what nothing reads have next states that are the same but for that. -/
theorem SameButUnread.stepShape {p : Params} (h : SameButUnread s t) {t' : State} (ht : StepShape p t t') :
    ∃ s', StepShape p s s' ∧ SameButUnread s' t' := by
  have hstage : s.stage = t.stage := by rw [← h]
  have hir : s.ir = t.ir := by rw [← h]
  have hlatch : latchedInstrIn p s = latchedInstrIn p t := by rw [← h]; rfl
  cases ht with
  | fetch hs => exact ⟨_, .fetch (by rwa [hstage]), by rw [← h]; rfl⟩
  | decode hs d hd => exact ⟨_, .decode (hstage.trans hs) d (by rwa [hir]), by rw [← h]; rfl⟩
  | execute hs i hi q hq =>
    exact ⟨_, .execute (hstage.trans hs) i (hlatch.trans hi) q ((h.pcAfterIn p i).trans hq),
      (h.dataPath i).endIn p i q⟩
  | halt hs => exact ⟨_, .halt (hstage.trans hs), by rw [← h]; rfl⟩

end

/-- Settles O22, by the next states that a step can have: each is the same for both states but for what nothing
reads. -/
theorem unreadStateDoesNotInfluenceAnything : Obligations.UnreadStateDoesNotInfluenceAnything := by
  intro s t v' fault' ar' cycles' h
  have hsame : SameButUnread { s with v := v', ar := ar', fault := fault', cycles := cycles' } s := rfl
  obtain ⟨u, hu, hut⟩ := hsame.stepShape (step_shape h)
  exact ⟨u, by rw [← stepIn_params, hu.stepIn_eq], hut⟩

/-! ### The snapshot -/

/-- R60: a canonical memory lists no cell past the last. -/
theorem Memory.read_above {lo addr : Nat} {m : Memory} (hm : Memory.wfFrom lo m = true) (h : 16 ≤ addr) :
    m.read addr = 0 := by
  induction m generalizing lo with
  | nil => rfl
  | cons cell rest ih =>
    obtain ⟨x, v⟩ := cell
    obtain ⟨-, hx, -, hrest⟩ := (Memory.wfFrom_cons ..).1 hm
    have hne : addr ≠ x := by omega
    simpa only [Memory.read, if_neg hne] using ih hrest

/-- R66: the 16 bytes of a snapshot determine a canonical memory. -/
theorem Memory.eq_of_snapshot_eq {m k : Memory} (hm : m.wf = true) (hk : k.wf = true)
    (h : m.snapshot = k.snapshot) : m = k := by
  refine Memory.ext_of_wf hm hk fun addr => ?_
  by_cases ha : addr < 16
  · exact List.map_inj_left.1 h addr (List.mem_range.2 ha)
  · rw [Memory.read_above hm (by omega), Memory.read_above hk (by omega)]

/-- Settles O51: a snapshot holds every field but the latch and the last result, and memory as 16 bytes. -/
theorem snapshotShowsTheState : Obligations.SnapshotShowsTheState := by
  refine ⟨fun s t hs ht hdec hmore h => ?_, fun s => beq_iff_eq, fun g => by cases g <;> rfl⟩
  have hmem : s.mem = t.mem := Memory.eq_of_snapshot_eq hs ht (congrArg Snapshot.memory h)
  cases s
  cases t
  simp only [snapshot, Snapshot.mk.injEq] at h
  simp_all

/-! ### The block and its memory (R42, R43) -/

/-- The state with another memory. -/
def withMem (m : Memory) (s : State) : State := { s with mem := m }

@[simp] theorem withMem_mem (m : Memory) (s : State) : (withMem m s).mem = m := rfl

theorem setReg_withMem (r : Reg) (w : Byte) (m : Memory) (s : State) :
    setReg r w (withMem m s) = withMem m (setReg r w s) := by cases r <;> rfl

theorem getReg_withMem (r : Reg) (m : Memory) (s : State) : getReg r (withMem m s) = getReg r s := by
  cases r <;> rfl

theorem aluOperands_withMem (op : AluOp) (r q : Reg) (m : Memory) (s : State) :
    aluOperands op r q (withMem m s) = withMem m (aluOperands op r q s) := by
  simp only [aluOperands_eq, getReg_withMem, setReg_withMem]
  rfl

theorem endIn_withMem (p : Params) (i : Instr) (m : Memory) (s : State) (q : Addr) :
    endIn p i (withMem m s) q = withMem m (endIn p i s q) := by cases i <;> rfl

/-- R43, R144: the data path of an EXECUTE step in the block, with the byte on `mem_rdata`. -/
def blockPath (i : Instr) (w : Byte) : State → State :=
  match i with
  | .loadA x => loadFrom .a x w
  | .loadB x => loadFrom .b x w
  | .loadC x => loadFrom .c x w
  | .loadD x => loadFrom .d x w
  | .storeA x | .storeB x | .storeC x | .storeD x => placeAddress x
  | i => dataPath i

/-- R147: the block's EXECUTE step ends as the machine's does. -/
theorem blockExecIn_eq (p : Params) (i : Instr) (w : Byte) (s : State) :
    blockExecIn p i w s = mapNext (endIn p i (blockPath i w s)) (pcAfterIn p i s) := by
  have hexec := execIn_eq p i s
  cases i with
  | loadA x | loadB x | loadC x | loadD x | storeA x | storeB x | storeC x | storeD x =>
    refine (retireNextIn_eq p _).trans ?_
    rw [pcNextIn_congr (t := s) (by simp [loadFrom_eq])]
    rfl
  | add r q | sub r q | jump x | jumpNeg x | jumpZro x | jumpAbv x | jumpBlw x | halt x => exact hexec

theorem blockPath_withMem (i : Instr) (w : Byte) (m : Memory) (s : State) :
    blockPath i w (withMem m s) = withMem m (blockPath i w s) := by
  cases i with
  | add r q | sub r q => exact aluOperands_withMem _ r q m s
  | _ => rfl

/-- The block neither reads the memory in its state nor writes it. -/
theorem blockStepIn_withMem (p : Params) (w : Byte) (m : Memory) (s : State) :
    blockStepIn p w (withMem m s) = mapNext (withMem m) (blockStepIn p w s) := by
  have hlatch : latchedInstrIn p (withMem m s) = latchedInstrIn p s := rfl
  have hstage : (withMem m s).stage = s.stage := rfl
  cases h : s.stage with
  | idle | fetch | halt => simp only [blockStepIn, hstage, h]; rfl
  | decode =>
    simp only [blockStepIn, h, doDecodeIn, doDecodeWith, withMem]
    cases parseWith (mnemonicOfIn p) s.ir <;> rfl
  | execute =>
    simp only [blockStepIn, hstage, h, hlatch]
    cases latchedInstrIn p s with
    | none => rfl
    | some i =>
      simp only [blockExecIn_eq, mapNext_mapNext, ← endIn_withMem, ← blockPath_withMem]
      rw [pcAfterIn_congr (t := s) rfl rfl rfl]
      rfl

/-- R43, R144: the address on the memory port while a step is performed. -/
def stepAddrIn (p : Params) (s : State) : Addr := (busRequestIn p s).addr.getD s.ar

/-- R43: what the step's access leaves in the memory. -/
def accessedMemIn (p : Params) (s : State) : Memory := memoryEdge (stepAddrIn p s) (busRequestIn p s).data s.mem

theorem withMem_aluOperands (op : AluOp) (r q : Reg) (s : State) :
    withMem s.mem (aluOperands op r q s) = aluOperands op r q s := (aluOperands_withMem op r q s.mem s).symm

/-- R43, R67, R144: the data path is the block's with the byte read, and the memory with the byte written. -/
theorem dataPath_eq_blockPath {p : Params} {i : Instr} {s : State} (hs : s.stage = .execute)
    (hi : latchedInstrIn p s = some i) :
    dataPath i s = withMem (accessedMemIn p s) (blockPath i (memRead s.mem (stepAddrIn p s).toNat).1 s) := by
  have hreq : busRequestIn p s = instrRequest i s := by simp [busRequestIn, hs, hi]
  simp only [accessedMemIn, stepAddrIn, hreq]
  cases i with
  | add r q | sub r q => exact (withMem_aluOperands _ r q s).symm
  | _ => rfl

/-- R42, R43: a step is the block's step, with the byte its access reads, and the write its access makes. -/
theorem stepIn_eq_blockStepIn (p : Params) (s : State) :
    stepIn p s =
      mapNext (withMem (accessedMemIn p s)) (blockStepIn p (memRead s.mem (stepAddrIn p s).toNat).1 s) := by
  cases h : s.stage with
  | idle | fetch | halt => simp only [stepIn, blockStepIn, accessedMemIn, stepAddrIn, busRequestIn, h]; rfl
  | decode =>
    simp only [stepIn, blockStepIn, accessedMemIn, busRequestIn, h, doDecodeIn, doDecodeWith]
    cases parseWith (mnemonicOfIn p) s.ir <;> rfl
  | execute =>
    simp only [stepIn, blockStepIn, h]
    cases hi : latchedInstrIn p s with
    | none => rfl
    | some i =>
      simp only [execIn_eq, blockExecIn_eq, mapNext_mapNext, ← endIn_withMem]
      rw [← dataPath_eq_blockPath h hi]

/-- R26, R42: the block's step stops where the step does and for the same reason, whatever is on `mem_rdata`. -/
theorem blockStepIn_stops (p : Params) (w : Byte) (s : State) :
    mapNext (fun _ => ()) (blockStepIn p w s) = mapNext (fun _ => ()) (stepIn p s) := by
  unfold blockStepIn stepIn
  cases s.stage with
  | execute =>
    cases latchedInstrIn p s with
    | none => rfl
    | some i => simp only [execIn_eq, blockExecIn_eq, mapNext_mapNext]
  | _ => rfl

/-- R42: at an edge that performs a step, the port shows the access of that step. -/
theorem portRequestIn_of_step {p : Params} {s t : State} (h : stepIn p s = .next t) :
    portRequestIn p false true s = busRequestIn p s := by
  have hblock := blockStepIn_stops p 0x00 s
  rw [h, mapNext_next] at hblock
  obtain ⟨u, hu, -⟩ := mapNext_eq_next.1 hblock
  have hperforms : performsStepIn p false true s = true := by simp only [performsStepIn, hu]; rfl
  rw [portRequestIn, if_pos hperforms]

/-- R42, R43: at an edge with `step_req` alone, the block steps and the memory takes its write. -/
theorem clockEdgeIn_eq (p : Params) (s : State) :
    clockEdgeIn p false true s =
      mapNext (withMem (memoryEdge (outputsIn p false true s).memAddr (outputsIn p false true s).memWdata s.mem))
        (blockStepIn p (memRead s.mem (outputsIn p false true s).memAddr.toNat).1 s) := by
  simp only [clockEdgeIn, blockEdgeIn, if_true, Bool.false_eq_true, if_false]
  cases blockStepIn p (memRead s.mem (outputsIn p false true s).memAddr.toNat).1 s <;> rfl

theorem clockEdgeIn_step (p : Params) (s : State) : clockEdgeIn p false true s = stepIn p s := by
  have hstops : mapNext (fun _ => ()) (clockEdgeIn p false true s) = mapNext (fun _ => ()) (stepIn p s) := by
    rw [clockEdgeIn_eq, mapNext_mapNext, blockStepIn_stops]
  cases hs : stepIn p s with
  | next t =>
    have haddr : (outputsIn p false true s).memAddr = stepAddrIn p s := by
      simp only [outputsIn, portRequestIn_of_step hs, stepAddrIn]
    have hdata : (outputsIn p false true s).memWdata = (busRequestIn p s).data := by
      simp only [outputsIn, portRequestIn_of_step hs]
    rw [clockEdgeIn_eq, haddr, hdata, ← hs, stepIn_eq_blockStepIn, accessedMemIn]
  | fault r => exact mapNext_eq_fault.1 (hstops.trans (by rw [hs, mapNext_fault]))
  | refused r => exact mapNext_eq_refused.1 (hstops.trans (by rw [hs, mapNext_refused]))

theorem blockEdgeIn_withMem (p : Params) (inp : Inputs) (m : Memory) (s : State) :
    blockEdgeIn p inp (withMem m s) = mapNext (withMem m) (blockEdgeIn p inp s) := by
  unfold blockEdgeIn
  split
  · rfl
  · split
    · exact blockStepIn_withMem p _ m s
    · rfl

theorem blockEdgeIn_mem {p : Params} {inp : Inputs} {s t : State} (h : blockEdgeIn p inp s = .next t) :
    t.mem = s.mem := by
  have hself : blockEdgeIn p inp s = mapNext (withMem s.mem) (blockEdgeIn p inp s) :=
    blockEdgeIn_withMem p inp s.mem s
  rw [h, mapNext_next] at hself
  injection hself with he
  rw [he, withMem_mem]

/-- Settles O58: the step is the block's with its access made, and the block passes its memory field through. -/
theorem blockAndMemoryPerformTheStep : Obligations.BlockAndMemoryPerformTheStep := by
  refine ⟨clockEdgeIn_step, fun p inp s t m h => ⟨blockEdgeIn_mem h, ?_⟩⟩
  have hm := blockEdgeIn_withMem p inp m s
  rw [h] at hm
  exact hm

/-! ### The accesses of the instructions (R43, R67) -/

theorem busRequest_execute {s : State} {i : Instr} (hs : s.stage = .execute) (hi : latchedInstr s = some i) :
    busRequest s = instrRequest i s := by
  have hi' : latchedInstrIn Config.params s = some i := hi
  simp [busRequest, busRequestIn, hs, hi']

theorem busRequest_fetch {s : State} (hs : s.stage = .idle ∨ s.stage = .fetch) : busRequest s = .read s.pc := by
  rcases hs with hs | hs <;> simp [busRequest, busRequestIn, hs]

theorem instrRequest_load {i : Instr} {x : Addr} (s : State)
    (h : i ∈ [Instr.loadA x, .loadB x, .loadC x, .loadD x]) : instrRequest i s = .read x := by
  simp only [List.mem_cons, List.not_mem_nil, or_false] at h
  obtain rfl | rfl | rfl | rfl := h <;> rfl

theorem dataPath_load {i : Instr} {r : Reg} {x : Addr} (s : State)
    (h : (i, r) ∈ [(Instr.loadA x, Reg.a), (.loadB x, .b), (.loadC x, .c), (.loadD x, .d)]) :
    dataPath i s = loadOperand r x s := by
  simp only [List.mem_cons, Prod.mk.injEq, List.not_mem_nil, or_false] at h
  obtain ⟨rfl, rfl⟩ | ⟨rfl, rfl⟩ | ⟨rfl, rfl⟩ | ⟨rfl, rfl⟩ := h <;> rfl

theorem instrRequest_store {i : Instr} {r : Reg} {x : Addr} (s : State)
    (h : (i, r) ∈ [(Instr.storeA x, Reg.a), (.storeB x, .b), (.storeC x, .c), (.storeD x, .d)]) :
    instrRequest i s = .write x (getReg r s) := by
  simp only [List.mem_cons, Prod.mk.injEq, List.not_mem_nil, or_false] at h
  obtain ⟨rfl, rfl⟩ | ⟨rfl, rfl⟩ | ⟨rfl, rfl⟩ | ⟨rfl, rfl⟩ := h <;> rfl

theorem instrRequest_other {i : Instr} (s : State)
    (h : i.mnemonic ∈ [Mnemonic.add, .sub, .jump, .jumpNeg, .jumpZro, .jumpAbv, .jumpBlw, .halt]) :
    instrRequest i s = .idle := by
  cases i with
  | loadA x | loadB x | loadC x | loadD x | storeA x | storeB x | storeC x | storeD x =>
    simp [Instr.mnemonic] at h
  | _ => rfl

/-- R43: after a step, memory holds what the step's access leaves in it. -/
theorem stepIn_mem {p : Params} {s t : State} (h : stepIn p s = .next t) : t.mem = accessedMemIn p s := by
  obtain ⟨u, -, rfl⟩ := mapNext_eq_next.1 ((stepIn_eq_blockStepIn p s).symm.trans h)
  rfl

theorem accessedMemIn_of_write {p : Params} {s : State} {x : Addr} {w : Byte} (h : busRequestIn p s = .write x w) :
    accessedMemIn p s = s.mem.write x.toNat w := by
  simp [accessedMemIn, stepAddrIn, h, BusRequest.addr, BusRequest.data, memoryEdge]

theorem accessedMemIn_of_no_write {p : Params} {s : State} (h : ∀ x w, busRequestIn p s ≠ .write x w) :
    accessedMemIn p s = s.mem := by
  cases hreq : busRequestIn p s with
  | idle | read x => simp [accessedMemIn, hreq, BusRequest.data, memoryEdge]
  | write x w => exact absurd hreq (h x w)

theorem getReg_loadOperand (r : Reg) (x : Addr) (s : State) :
    getReg r (loadOperand r x s) = s.mem.read x.toNat := by
  rw [loadOperand_eq, getReg_setReg, if_pos rfl]

/-- Settles O45: a step is the block's step with its one access made. -/
theorem memoryChangesOnlyByTheRequestedWrite : Obligations.MemoryChangesOnlyByTheRequestedWrite := by
  intro s t h
  have hmem : t.mem = accessedMemIn Config.params s := stepIn_mem (by rwa [stepIn_params])
  refine ⟨fun x w hw => hmem.trans (accessedMemIn_of_write hw), fun hw => hmem.trans (accessedMemIn_of_no_write hw),
    fun hs => ⟨busRequest_fetch hs, ?_⟩, fun i r x hs hi hm => ?_,
    fun i r x hs hi hm => (busRequest_execute hs hi).trans (instrRequest_store s hm)⟩
  · rw [instructionRegisterIsWrittenOnlyByFetch.1 s t h, if_pos hs]
  · have hload : i ∈ [Instr.loadA x, .loadB x, .loadC x, .loadD x] := List.mem_map_of_mem (f := Prod.fst) hm
    refine ⟨(busRequest_execute hs hi).trans (instrRequest_load s hload), ?_⟩
    rw [step_execute hs hi, ← execIn_params, execIn_eq, mapNext_eq_next] at h
    obtain ⟨q, -, rfl⟩ := h
    rw [getReg_endIn, dataPath_load s hm, getReg_loadOperand]

/-! ### The memory port at the defaults -/

/-- R26, R204, R205: under wrap and nop every EXECUTE step has a next state. -/
theorem pcAfterIn_params_next (i : Instr) (s : State) : ∃ q, pcAfterIn Config.params i s = .next q := by
  have hnext : pcNextIn Config.params s = .next (s.pc + 1) := rfl
  cases i with
  | jumpNeg x => cases hn : s.n <;> simp [pcAfterIn, hn, hnext]
  | jumpZro x => cases hz : s.z <;> simp [pcAfterIn, hz, hnext]
  | _ => exact ⟨_, rfl⟩

theorem exec_completes (i : Instr) (s : State) : Completes (exec i s) := by
  obtain ⟨q, hq⟩ := pcAfterIn_params_next i s
  rw [← execIn_params, execIn_eq, hq]
  exact ⟨_, rfl⟩

theorem portRequestIn_of_completes {s : State} (h : Completes (step s)) :
    portRequestIn Config.params false true s = busRequest s := by
  obtain ⟨t, ht⟩ := h
  exact portRequestIn_of_step (by rwa [stepIn_params])

theorem portRequestIn_execute {s : State} {i : Instr} (hs : s.stage = .execute) (hi : latchedInstr s = some i) :
    portRequestIn Config.params false true s = instrRequest i s := by
  rw [portRequestIn_of_completes (by rw [step_execute hs hi]; exact exec_completes i s), busRequest_execute hs hi]

theorem portRequestIn_fetch {s : State} (hs : s.stage = .idle ∨ s.stage = .fetch) :
    portRequestIn Config.params false true s = .read s.pc := by
  rw [portRequestIn_of_completes ⟨doFetch s, hs.elim step_idle step_fetch⟩, busRequest_fetch hs]

theorem portRequestIn_decode_halt {s : State} (hs : s.stage = .decode ∨ s.stage = .halt) :
    portRequestIn Config.params false true s = .idle := by
  obtain hs | hs := hs
  · rw [portRequestIn_of_completes ⟨_, step_decode hs⟩]
    simp [busRequest, busRequestIn, hs]
  · rw [portRequestIn_of_completes ⟨_, step_halt hs⟩]
    simp [busRequest, busRequestIn, hs]

/-- R42, R261: an edge with `rst` or without `step_req` performs no step. -/
theorem portRequestIn_no_step (p : Params) {rst req : Bool} (h : rst = true ∨ req = false) (s : State) :
    portRequestIn p rst req s = .idle := by
  obtain rfl | rfl := h <;> simp [portRequestIn, performsStepIn]

section
variable {rst req : Bool} {s : State}

theorem outputs_of_idle (h : portRequestIn Config.params rst req s = .idle) :
    (outputs rst req s).memRe = false ∧ (outputs rst req s).memWe = false := by
  simp [outputs, outputsIn, h, BusRequest.isRead, BusRequest.data]

theorem outputs_of_read {x : Addr} (h : portRequestIn Config.params rst req s = .read x) :
    (outputs rst req s).memAddr = x ∧ (outputs rst req s).memRe = true ∧ (outputs rst req s).memWe = false := by
  simp [outputs, outputsIn, h, BusRequest.addr, BusRequest.isRead, BusRequest.data]

theorem outputs_of_write {x : Addr} {w : Byte} (h : portRequestIn Config.params rst req s = .write x w) :
    (outputs rst req s).memAddr = x ∧ (outputs rst req s).memRe = false ∧ (outputs rst req s).memWe = true ∧
      (outputs rst req s).memWdata = some w := by
  simp [outputs, outputsIn, h, BusRequest.addr, BusRequest.isRead, BusRequest.data]

end

/-- Settles O46: at the defaults every step has a next state, so the port shows its access. -/
theorem memoryPortFollowsTheStep : Obligations.MemoryPortFollowsTheStep := fun s =>
  ⟨fun hs => outputs_of_read (portRequestIn_fetch hs),
   fun _ _ hs hi hl => outputs_of_read ((portRequestIn_execute hs hi).trans (instrRequest_load s hl)),
   fun _ _ _ hs hi hst => outputs_of_write ((portRequestIn_execute hs hi).trans (instrRequest_store s hst)),
   fun hs => outputs_of_idle (portRequestIn_decode_halt hs),
   fun _ hs hi ho => outputs_of_idle ((portRequestIn_execute hs hi).trans (instrRequest_other s ho)),
   fun _ _ h => outputs_of_idle (portRequestIn_no_step _ h s)⟩

end Sys2Proof.Machine
end

section
/-! Proofs of the statements about the memory (20_memory.md): the host's accesses, the whole-memory operations, and a
STORE to the cell that the next FETCH reads. -/

namespace Sys2Proof.Machine

/-! ### Single accesses (R61, R62, R63) -/

/-- Settles O41, by the laws of a read inside and outside memory. -/
theorem memReadInsideAndOutsideMemory : Obligations.MemReadInsideAndOutsideMemory := by
  refine fun m addr => ⟨fun h0 h16 => ?_, memRead_outside m⟩
  lift addr to Nat using h0
  exact memRead_inside m (by omega)

/-- Settles O42, by the laws of a write inside and outside memory, and reading after writing in canonical memory. -/
theorem memWriteInsideAndOutsideMemory : Obligations.MemWriteInsideAndOutsideMemory := by
  refine fun m addr v hm => ⟨fun h0 h16 => ?_, fun h => memWrite_outside m h v⟩
  lift addr to Nat using h0
  rw [memWrite_inside m (by omega), Int.toNat_natCast]
  refine ⟨rfl, ?_, fun other hne => Memory.read_write_other m addr other _ hne⟩
  rw [Memory.read_write_same hm, maskByte_value]

/-- Settles O47: a 4-bit address is inside memory. -/
theorem coreAddressesNeverLeaveMemory : Obligations.CoreAddressesNeverLeaveMemory := by
  refine fun m x w => ⟨?_, ?_⟩
  · rw [memRead_addr]
  · rw [memWrite_inside m x.isLt]

/-! ### The whole memory (R64, R65, R66) -/

/-- Settles O44: an empty list of cells reads as zero everywhere, and a snapshot maps the addresses in order. -/
theorem memoryResetAndSnapshot : Obligations.MemoryResetAndSnapshot := by
  refine ⟨fun addr _ => Memory.read_nil addr, fun m => ⟨?_, fun i hi => ?_⟩⟩
  · rw [Memory.snapshot, Memory.capacity, List.length_map, List.length_range]
  · rw [Memory.snapshot, Memory.capacity, List.getElem?_map, List.getElem?_range hi, Option.map_some]

/-- R64: filling from a start address on leaves the cells below it alone. -/
theorem Memory.read_fill_below (m : Memory) {start addr : Nat} (vs : List Int) (h : addr < start) :
    (m.fill start vs).read addr = m.read addr := by
  induction vs generalizing m start with
  | nil => rfl
  | cons v vs ih =>
    rw [Memory.fill, ih _ (by omega)]
    split
    · exact Memory.read_write_other m start addr _ (by omega)
    · rfl

/-- R64: from the start address on, a cell of memory holds the masked value of its place in the sequence, if any. -/
theorem Memory.read_fill_from {m : Memory} (hm : m.wf = true) {start k : Nat} (vs : List Int) (h : start + k < 16) :
    (m.fill start vs).read (start + k) =
      if k < vs.length then maskByte (vs.getD k 0) else m.read (start + k) := by
  induction vs generalizing m start k with
  | nil => rfl
  | cons v vs ih =>
    have hstart : start < Memory.capacity := Nat.lt_of_le_of_lt (Nat.le_add_right start k) h
    rw [Memory.fill, if_pos hstart]
    cases k with
    | zero => simp [Memory.read_fill_below, Memory.read_write_same hm]
    | succ k =>
      have hrest := ih (Memory.wf_write hm (maskByte v) hstart) (start := start + 1) (k := k) (by omega)
      rw [Memory.read_write_other _ _ _ _ (by omega)] at hrest
      simpa [Nat.add_comm, Nat.add_left_comm] using hrest

/-- Settles O43: a load fills reset memory from address 0 on. -/
theorem memoryLoadClearsThenCopies : Obligations.MemoryLoadClearsThenCopies := by
  intro m bytes addr h
  have hfill := Memory.read_fill_from Memory.wf_reset (start := 0) (k := addr) bytes (by omega)
  rw [Nat.zero_add] at hfill
  rw [Memory.load, hfill]
  split
  · exact maskByte_value _
  · rfl

/-! ### A STORE to the next word (R77, R271, R273) -/

/-- R174 to R177, R26: at the defaults a STORE completes with its data path done and PC at the successor. -/
theorem exec_store {i : Instr} {r : Reg} {x : Addr} (s : State)
    (h : (i, r) ∈ [(Instr.storeA x, Reg.a), (.storeB x, .b), (.storeC x, .c), (.storeD x, .d)]) :
    exec i s = .next (retireIn Config.params { storeOperand r x s with pc := s.pc + 1 }) := by
  simp only [List.mem_cons, Prod.mk.injEq, List.not_mem_nil, or_false] at h
  obtain ⟨rfl, rfl⟩ | ⟨rfl, rfl⟩ | ⟨rfl, rfl⟩ | ⟨rfl, rfl⟩ := h <;> rfl

/-- Settles O28: the STORE leaves its byte in the cell that PC names after it, and the stage at FETCH. -/
theorem storeIsSeenByTheNextFetch : Obligations.StoreIsSeenByTheNextFetch := by
  intro i r x s hm hpc hi
  refine ⟨_, _, exec_store s hi, rfl, step_fetch rfl, ?_⟩
  rw [doFetch_eq, doFetchFrom_ir, hpc, storeOperand_eq]
  exact Memory.read_write_same hm _ _

end Sys2Proof.Machine
end

section
/-! Proofs of the statements about words (30_encoding.md R90 to R99): the decoder and the encoder undo each other, so that
every byte is the word of exactly one instruction. -/

namespace Sys2Proof

section
variable {p : Params} (hp : p.wellFormed = true)
include hp

/-- R99: the converse of `decodeIn_encodeIn`. -/
theorem encodeIn_of_decodeIn {w : Byte} {i : Instr} (h : decodeIn p w = .ok i) : encodeIn p i = w := by
  obtain ⟨m, hparse, -, hop⟩ := parse_some hp w
  obtain rfl : Instr.ofPartsIn p m (operandField w) = i := Except.ok.inj ((decodeIn_eq_of_parse hparse).symm.trans h)
  rw [encodeIn, ofPartsIn_mnemonic, operandIn_ofPartsIn hp, hop, wordOf_fields]

theorem decodeIn_eq_ok_iff {w : Byte} {i : Instr} : decodeIn p w = .ok i ↔ encodeIn p i = w :=
  ⟨encodeIn_of_decodeIn hp, fun h => h ▸ decodeIn_encodeIn hp i⟩

/-- R99: no byte is refused. -/
theorem decodeIn_total (w : Byte) : ∃ i, decodeIn p w = .ok i := by
  obtain ⟨m, hparse, -, -⟩ := parse_some hp w
  exact ⟨_, decodeIn_eq_of_parse hparse⟩

end

theorem decode_eq_ok_iff {w : Byte} {i : Instr} : decode w = .ok i ↔ encode i = w :=
  decodeIn_eq_ok_iff params_wellFormed

/-- Settles O2: the byte decodes to something, and decoding is the inverse of encoding. -/
theorem everyWordIsExactlyOneInstruction : Obligations.EveryWordIsExactlyOneInstruction := by
  intro w
  obtain ⟨i, hi⟩ : ∃ i, decode w = .ok i := decodeIn_total params_wellFormed w
  refine ⟨i, hi, decode_eq_ok_iff.1 hi, fun j hj => ?_⟩
  exact Except.ok.inj ((decode_eq_ok_iff.2 hj).symm.trans hi)

/-- Settles O3: each of the words is the encoding of its instruction. -/
theorem wordsOfTheEncodingTableDecode : Obligations.WordsOfTheEncodingTableDecode := by
  refine ⟨?_, ?_, ?_, ?_, ?_, ?_, ?_, ?_, ?_, ?_, ?_⟩ <;> exact decode_eq_ok_iff.2 (by decide)

end Sys2Proof
end

section
/-! What the assembler gives for a whole text (30_encoding.md R102, R104, R111): the errors and the words of its lines,
each by itself. -/

namespace Sys2Proof.Machine

/-- R111: the error of a line, with the line's number; none where the line gives a word or nothing. -/
def numberedErrorIn (p : Params) : List Char × Nat → Option (Nat × LineError) := fun (line, number) =>
  match assembleLineIn p line with
  | some (.error e) => some (number, e)
  | _ => none

/-- R104: the word of a line; none where the line gives an error or nothing. -/
def lineWordIn (p : Params) (line : List Char) : Option Byte :=
  match assembleLineIn p line with
  | some (.ok w) => some w
  | _ => none

theorem lineWordIn_eq_some_iff {p : Params} {line : List Char} {w : Byte} :
    lineWordIn p line = some w ↔ assembleLineIn p line = some (.ok w) := by
  unfold lineWordIn
  split <;> simp_all

/-- R111: the errors of a text, in the order of its lines, which are numbered from 1. -/
def textErrorsIn (p : Params) (text : List Char) : AssemblyError :=
  ((splitAtChar '\n' text).zipIdx 1).filterMap (numberedErrorIn p)

/-- R104: the words of a text, in the order of its lines. -/
def textWordsIn (p : Params) (text : List Char) : List Byte := (splitAtChar '\n' text).filterMap (lineWordIn p)

/-- No line influences what another one gives. -/
theorem assembleLinesIn_eq (p : Params) (number : Nat) (lines : List (List Char)) :
    assembleLinesIn p number lines =
      ((lines.zipIdx number).filterMap (numberedErrorIn p), lines.filterMap (lineWordIn p)) := by
  induction lines generalizing number with
  | nil => rfl
  | cons line lines ih =>
    simp only [assembleLinesIn, ih, List.zipIdx_cons, List.filterMap_cons, numberedErrorIn, lineWordIn]
    cases assembleLineIn p line with
    | none => rfl
    | some r => cases r <;> rfl

theorem assembleIn_of_no_errors {p : Params} {text : List Char} (h : textErrorsIn p text = []) :
    assembleIn p text = .ok (textWordsIn p text) := by
  rw [assembleIn, assembleLinesIn_eq, ← textErrorsIn, h, textWordsIn]

theorem assembleIn_of_errors {p : Params} {text : List Char} (h : textErrorsIn p text ≠ []) :
    assembleIn p text = .error (textErrorsIn p text) := by
  obtain ⟨e, es, he⟩ := List.exists_cons_of_ne_nil h
  rw [assembleIn, assembleLinesIn_eq, ← textErrorsIn, he]

/-- R102: the bytes of a text that assembles are the words of its lines. -/
theorem words_of_assembleIn {p : Params} {text : List Char} {ws : List Byte} (h : assembleIn p text = .ok ws) :
    ws = textWordsIn p text := by
  by_cases he : textErrorsIn p text = []
  · exact Except.ok.inj (h.symm.trans (assembleIn_of_no_errors he))
  · simp [assembleIn_of_errors he] at h

/-- Settles O55: the errors and the words are those of the lines, each by itself. -/
theorem assemblyIsAllOrNothing : Obligations.AssemblyIsAllOrNothing := by
  rintro text _ rfl
  exact ⟨assembleIn_of_no_errors, assembleIn_of_errors⟩

end Sys2Proof.Machine
end

section
/-! The round trip (30_encoding.md R112, R113): the line that the disassembler prints for a word is a mnemonic, a space and
an operand, and the assembler reads these two back. -/

namespace Sys2Proof.Machine

/-! ### Lines of two tokens -/

/-- A token as it stands in a line: not empty, and without white space and line breaks (R116). -/
def isToken (cs : List Char) : Bool := !cs.isEmpty && cs.all fun c => !isBlank c && c != '\n'

theorem isToken_iff {cs : List Char} : isToken cs = true ↔ cs ≠ [] ∧ ∀ c ∈ cs, isBlank c = false ∧ c ≠ '\n' := by
  simp [isToken]

/-- R103: white space inside a line stays. -/
theorem trim_eq_self {cs : List Char} (hfirst : ∀ c ∈ cs.head?, isBlank c = false)
    (hlast : ∀ c ∈ cs.getLast?, isBlank c = false) : trim cs = cs := by
  have hdrop : ∀ l : List Char, (∀ c ∈ l.head?, isBlank c = false) → l.dropWhile isBlank = l := by
    intro l hl
    cases l with
    | nil => rfl
    | cons c l => exact List.dropWhile_cons_of_neg (by simp [hl c rfl])
  rw [trim, hdrop cs hfirst, hdrop cs.reverse (by simpa using hlast), List.reverse_reverse]

section
variable {tok rest : List Char} (htok : isToken tok = true) (hrest : isToken rest = true)
include htok

theorem trim_token : trim tok = tok := by
  obtain ⟨-, hplain⟩ := isToken_iff.1 htok
  exact trim_eq_self (fun c hc => (hplain c (List.mem_of_mem_head? hc)).1)
    fun c hc => (hplain c (List.mem_of_mem_getLast? hc)).1

theorem trim_space_token : trim (' ' :: tok) = tok := trim_token htok

theorem firstToken_token : firstToken tok = tok := by
  obtain ⟨-, hplain⟩ := isToken_iff.1 htok
  exact List.takeWhile_eq_self_iff.2 fun c hc => by simp [(hplain c hc).1]

theorem firstToken_append : firstToken (tok ++ ' ' :: rest) = tok := by
  obtain ⟨-, hplain⟩ := isToken_iff.1 htok
  rw [firstToken, List.takeWhile_append_of_pos fun c hc => by simp [(hplain c hc).1]]
  exact List.append_nil tok

include hrest

theorem afterToken_append : afterToken (tok ++ ' ' :: rest) = rest := by
  obtain ⟨-, hplain⟩ := isToken_iff.1 htok
  rw [afterToken, List.dropWhile_append_of_pos fun c hc => by simp [(hplain c hc).1]]
  exact trim_space_token hrest

theorem trim_append : trim (tok ++ ' ' :: rest) = tok ++ ' ' :: rest := by
  obtain ⟨hne, hplain⟩ := isToken_iff.1 htok
  obtain ⟨hne', hplain'⟩ := isToken_iff.1 hrest
  refine trim_eq_self (fun c hc => (hplain c ?_).1) fun c hc => (hplain' c ?_).1
  · rw [List.head?_append_of_ne_nil _ hne] at hc
    exact List.mem_of_mem_head? hc
  · rw [List.getLast?_append_of_ne_nil _ (List.cons_ne_nil _ _), List.getLast?_cons_of_ne_nil hne'] at hc
    exact List.mem_of_mem_getLast? hc

theorem newline_notMem_append : '\n' ∉ tok ++ ' ' :: rest := by
  obtain ⟨-, hplain⟩ := isToken_iff.1 htok
  obtain ⟨-, hplain'⟩ := isToken_iff.1 hrest
  intro h
  rcases List.mem_append.1 h with h | h
  · exact (hplain _ h).2 rfl
  · exact (hplain' _ (List.mem_of_ne_of_mem (by decide) h)).2 rfl

end

/-! ### What the disassembler prints is read back -/

/-- R96: no mnemonic holds white space. -/
theorem isToken_mnemonicName (m : Mnemonic) : isToken (mnemonicName m) = true := by cases m <;> rfl

/-- R105: no two mnemonics have one name. -/
theorem mnemonicOfName_mnemonicName (m : Mnemonic) : mnemonicOfName (mnemonicName m) = some m := by cases m <;> rfl

/-- R103: no mnemonic begins as a comment does. -/
theorem isComment_mnemonicName_append (m : Mnemonic) (cs : List Char) :
    isComment (mnemonicName m ++ cs) = false := by cases m <;> rfl

/-- R105, R106: a mnemonic, a space and one token are an instruction line with that token as its operand. -/
theorem assembleLineIn_mnemonicName (p : Params) (m : Mnemonic) {operand : List Char}
    (h : isToken operand = true) :
    assembleLineIn p (mnemonicName m ++ ' ' :: operand) = some (assembleOperandIn p m operand) := by
  have hm := isToken_mnemonicName m
  simp [assembleLineIn, assembleInstrIn, trim_append hm h, isComment_mnemonicName_append, firstToken_append hm,
    mnemonicOfName_mnemonicName, afterToken_append hm h]

/-- R112: the operand that the disassembler prints for an operand nibble. -/
def printedOperandIn (p : Params) (m : Mnemonic) (x : Nibble) : List Char :=
  match m.opClass with
  | .arithmetic => [regName (regOfIn p (reg1Field x)), ',', regName (regOfIn p (reg2Field x))]
  | _ => decimal x.toNat ++ ['D']

theorem isToken_regNames (r q : Reg) : isToken [regName r, ',', regName q] = true := by cases r <;> cases q <;> rfl

theorem isToken_decimal : ∀ x : Nibble, isToken (decimal x.toNat ++ ['D']) = true := by decide

theorem isToken_printedOperandIn (p : Params) (m : Mnemonic) (x : Nibble) :
    isToken (printedOperandIn p m x) = true := by
  unfold printedOperandIn
  split
  · exact isToken_regNames _ _
  · exact isToken_decimal x

/-- R108: the names of two registers are read back. -/
theorem parseRegisterPair_regNames (r q : Reg) : parseRegisterPair [regName r, ',', regName q] = .ok (r, q) := by
  cases r <;> cases q <;> rfl

/-- R110: an address in decimal with its suffix is read back. -/
theorem parseAddressOperand_decimal : ∀ x : Nibble, parseAddressOperand (decimal x.toNat ++ ['D']) = .ok x := by
  decide

/-! ### What the assembler gives -/

/-- R107 to R109: the operand nibble that the assembler reads from the operand text. -/
def readOperandIn (p : Params) (m : Mnemonic) (operand : List Char) : Except LineError Nibble :=
  match m.opClass with
  | .halt => .ok 0
  | .arithmetic => (parseRegisterPair operand).map fun (r, q) => regPairIn p r q
  | _ => parseAddressOperand operand

theorem assembleOperandIn_eq (p : Params) (m : Mnemonic) (operand : List Char) :
    assembleOperandIn p m operand = (readOperandIn p m operand).map (wordOf (p.opcodeMap m)) := by
  cases m with
  | add | sub =>
    simp only [assembleOperandIn, readOperandIn, Mnemonic.opClass]
    cases parseRegisterPair operand <;> rfl
  | _ => rfl

/-- R107 to R109: the word of a line has the opcode of its mnemonic, and the operand 0 where that is HALT. -/
theorem assembleOperandIn_ok {p : Params} {m : Mnemonic} {operand : List Char} {w : Byte}
    (h : assembleOperandIn p m operand = .ok w) :
    ∃ x, w = wordOf (p.opcodeMap m) x ∧ (m = .halt → x = 0) := by
  rw [assembleOperandIn_eq] at h
  cases hx : readOperandIn p m operand with
  | error e => simp [hx, Except.map] at h
  | ok x =>
    rw [hx] at h
    refine ⟨x, (Except.ok.inj h).symm, ?_⟩
    rintro rfl
    exact (Except.ok.inj hx).symm

/-- R103, R105: a line that gives a word is an instruction line. -/
theorem assembleLineIn_ok {p : Params} {line : List Char} {w : Byte} (h : assembleLineIn p line = some (.ok w)) :
    ∃ m operand, assembleOperandIn p m operand = .ok w := by
  simp only [assembleLineIn, assembleInstrIn] at h
  split at h
  · cases h
  · split at h
    · cases h
    · exact ⟨_, _, Option.some.inj h⟩

/-! ### The round trip -/

/-- R113: a word as the round trip gives it: the operand of HALT becomes 0. -/
def reassembledIn (p : Params) (w : Byte) : Byte :=
  if opcodeField w = p.opcodeMap .halt then wordOf (p.opcodeMap .halt) 0 else w

section
variable {p : Params} (hp : p.wellFormed = true)
include hp

theorem reassembledIn_wordOf (m : Mnemonic) (x : Nibble) :
    reassembledIn p (wordOf (p.opcodeMap m) x) = wordOf (p.opcodeMap m) (if m = .halt then 0 else x) := by
  by_cases hm : m = .halt <;> simp [reassembledIn, (Params.opcodeMap_injective hp).eq_iff, hm]

theorem regPairIn_fields (x : Nibble) : regPairIn p (regOfIn p (reg1Field x)) (regOfIn p (reg2Field x)) = x := by
  rw [regPairIn, regCode_regOfIn hp, regCode_regOfIn hp, regFields_append]

theorem readOperandIn_printedOperandIn (m : Mnemonic) (x : Nibble) :
    readOperandIn p m (printedOperandIn p m x) = .ok (if m = .halt then 0 else x) := by
  cases m with
  | add | sub =>
    simp [readOperandIn, printedOperandIn, Mnemonic.opClass, parseRegisterPair_regNames, Except.map, regPairIn_fields hp]
  | halt => rfl
  | _ => exact parseAddressOperand_decimal x

/-- R112: the line of a word is its mnemonic, a space and its operand. -/
theorem disassembleWordIn_wordOf (m : Mnemonic) (x : Nibble) :
    disassembleWordIn p (wordOf (p.opcodeMap m) x) = mnemonicName m ++ ' ' :: printedOperandIn p m x := by
  cases m <;> simp [disassembleWordIn, mnemonicOfIn_opcodeMap hp, printedOperandIn, Mnemonic.opClass]

theorem exists_wordOf (w : Byte) : ∃ m x, w = wordOf (p.opcodeMap m) x := by
  obtain ⟨m, -, hop⟩ := opcodeMap_onto hp (opcodeField w)
  exact ⟨m, operandField w, by rw [hop, wordOf_fields]⟩

theorem newline_notMem_disassembleWordIn (w : Byte) : '\n' ∉ disassembleWordIn p w := by
  obtain ⟨m, x, rfl⟩ := exists_wordOf hp w
  rw [disassembleWordIn_wordOf hp]
  exact newline_notMem_append (isToken_mnemonicName m) (isToken_printedOperandIn p m x)

theorem assembleLineIn_disassembleWordIn (w : Byte) :
    assembleLineIn p (disassembleWordIn p w) = some (.ok (reassembledIn p w)) := by
  obtain ⟨m, x, rfl⟩ := exists_wordOf hp w
  rw [disassembleWordIn_wordOf hp, assembleLineIn_mnemonicName p m (isToken_printedOperandIn p m x),
    assembleOperandIn_eq, readOperandIn_printedOperandIn hp, reassembledIn_wordOf hp]
  rfl

theorem assembleLinesIn_map_disassembleWordIn (number : Nat) (ws : List Byte) :
    assembleLinesIn p number (ws.map (disassembleWordIn p)) = ([], ws.map (reassembledIn p)) := by
  induction ws generalizing number with
  | nil => rfl
  | cons w ws ih => simp [assembleLinesIn, assembleLineIn_disassembleWordIn hp, ih]

/-- R113, for raw words. -/
theorem assembleIn_disassembleIn (ws : List Byte) :
    assembleIn p (disassembleIn p ws) = .ok (ws.map (reassembledIn p)) := by
  cases ws with
  | nil => rfl
  | cons w ws =>
    have hlines : splitAtChar '\n' (disassembleIn p (w :: ws)) = (w :: ws).map (disassembleWordIn p) := by
      refine splitAtChar_joinLines (by simp) fun line hline => ?_
      obtain ⟨v, -, rfl⟩ := List.mem_map.1 hline
      exact newline_notMem_disassembleWordIn hp v
    rw [assembleIn, hlines, assembleLinesIn_map_disassembleWordIn hp]

theorem reassembledIn_of_assembleLineIn {line : List Char} {w : Byte}
    (h : assembleLineIn p line = some (.ok w)) : reassembledIn p w = w := by
  obtain ⟨m, operand, hword⟩ := assembleLineIn_ok h
  obtain ⟨x, rfl, hx⟩ := assembleOperandIn_ok hword
  rw [reassembledIn_wordOf hp]
  split
  · rw [hx ‹_›]
  · rfl

/-- R113, for the bytes of a text. -/
theorem assembleIn_disassembleIn_of_assembleIn {text : List Char} {ws : List Byte} (h : assembleIn p text = .ok ws) :
    assembleIn p (disassembleIn p ws) = .ok ws := by
  have hkept : ∀ w ∈ ws, reassembledIn p w = w := by
    rw [words_of_assembleIn h]
    intro w hw
    obtain ⟨line, -, hline⟩ := List.mem_filterMap.1 hw
    exact reassembledIn_of_assembleLineIn hp (lineWordIn_eq_some_iff.1 hline)
  rw [assembleIn_disassembleIn hp, List.map_congr_left hkept, List.map_id']

end

/-- Settles O56: at the default map the opcode of HALT is 0xF. -/
theorem reassembledRawWordsAreTheWords : Obligations.ReassembledRawWordsAreTheWords :=
  assembleIn_disassembleIn params_wellFormed

/-- Settles O57: the bytes of a text hold no HALT word that the round trip changes. -/
theorem assembledTextRoundTrips : Obligations.AssembledTextRoundTrips :=
  fun _ _ => assembleIn_disassembleIn_of_assembleIn params_wellFormed

end Sys2Proof.Machine
end

section
/-! Proofs of the statement about address literals (30_encoding.md R110): the digits of a base are its digit characters in
either case, and a literal has the value of its digits. -/

namespace Sys2Proof.Machine

/-! ### Digits -/

theorem toNat_toUpper (c : Char) :
    c.toUpper.toNat = if 97 ≤ c.toNat ∧ c.toNat ≤ 122 then c.toNat - 32 else c.toNat := by
  have hcond : ('a'.val ≤ c.val ∧ c.val ≤ 'z'.val) ↔ (97 ≤ c.toNat ∧ c.toNat ≤ 122) := Iff.rfl
  by_cases h : 97 ≤ c.toNat ∧ c.toNat ≤ 122
  · have hsum : (c.val + ('A'.val - 'a'.val)).toNat = (c.toNat + 4294967264) % 4294967296 := UInt32.toNat_add _ _
    rw [if_pos h, Char.toUpper, dif_pos (hcond.2 h)]
    exact hsum.trans (by omega)
  · rw [if_neg h, Char.toUpper, dif_neg (mt hcond.1 h)]

/-- G2: each digit of the three bases has its value, in either case. -/
theorem digitValue_digitChar : ∀ base ∈ [2, 10, 16], ∀ d < base,
    digitValue base d.digitChar = some d ∧ digitValue base d.digitChar.toUpper = some d := by decide

theorem digitChar_codes : ∀ d < 16, d.digitChar.toNat = (if d < 10 then d + 48 else d + 87) ∧
    d.digitChar.toUpper.toNat = (if d < 10 then d + 48 else d + 55) := by decide

/-- G2: no other character is a digit. -/
theorem eq_digitChar_of_digitValue {base : Nat} {c : Char} {v : Nat} (hbase : base ≤ 16)
    (h : digitValue base c = some v) : v < base ∧ (c = v.digitChar ∨ c = v.digitChar.toUpper) := by
  simp only [digitValue, toNat_toUpper, Option.ite_none_right_eq_some, Option.some.injEq] at h
  obtain ⟨hlt, hv⟩ := h
  rw [hv] at hlt
  obtain ⟨hlower, hupper⟩ := digitChar_codes v (by omega)
  refine ⟨hlt, ?_⟩
  simp only [← Char.toNat_inj, hlower, hupper]
  split_ifs at hv ⊢ <;> omega

/-- R110: a string of digits has the value that its digits have in the base. -/
theorem digitsValue_map {base : Nat} {char : Nat → Char} {ds : List Nat} (acc : Nat)
    (h : ∀ d ∈ ds, digitValue base (char d) = some d) :
    digitsValue base acc (ds.map char) = some (ds.foldl (fun acc d => acc * base + d) acc) := by
  induction ds generalizing acc with
  | nil => rfl
  | cons d ds ih =>
    obtain ⟨hd, hds⟩ := List.forall_mem_cons.1 h
    simp only [List.map_cons, List.foldl_cons, digitsValue, hd, ih _ hds]

/-- R110: one character that is no digit spoils the string. -/
theorem digitsValue_eq_none {base : Nat} {cs : List Char} (acc : Nat) (h : ∃ c ∈ cs, digitValue base c = none) :
    digitsValue base acc cs = none := by
  induction cs generalizing acc with
  | nil => simp at h
  | cons c cs ih =>
    cases hc : digitValue base c with
    | none => simp only [digitsValue, hc]
    | some v =>
      have hcs : ∃ c ∈ cs, digitValue base c = none := by simpa [hc] using h
      simp only [digitsValue, hc, ih _ hcs]

/-! ### Literals -/

/-- R110: a trailing base letter is read as the suffix. -/
theorem literalParts_suffix {base : Nat} {suffix : Char} (h : baseOfSuffix suffix = some base) (cs : List Char) :
    literalParts (cs ++ [suffix]) = (base, cs) := by
  simp [literalParts, h]

/-- R110: a decimal digit is no base letter. -/
theorem baseOfSuffix_digitChar : ∀ d < 10, baseOfSuffix d.digitChar = none := by decide

/-- R110: a token that ends in a decimal digit is read in base 10. -/
theorem literalParts_decimal {ds : List Nat} (h : ∀ d ∈ ds, d < 10) :
    literalParts (ds.map Nat.digitChar) = (10, ds.map Nat.digitChar) := by
  rw [literalParts, List.getLast?_map]
  cases hlast : ds.getLast? with
  | none => simp [List.getLast?_eq_none_iff.1 hlast]
  | some d => simp [baseOfSuffix_digitChar d (h d (List.mem_of_getLast? hlast))]

section
variable {tok digits : List Char} {base : Nat} (hparts : literalParts tok = (base, digits))
include hparts

theorem parseAddress_of_value {v : Nat} (hne : digits ≠ []) (hv : digitsValue base 0 digits = some v) :
    parseAddress tok = if v ≤ 15 then .ok (BitVec.ofNat 4 v) else .error .rangeError := by
  simp only [parseAddress, hparts, if_neg hne, hv]
  by_cases hle : v ≤ 15
  · rw [if_pos hle, if_neg (by omega)]
  · rw [if_neg hle, if_pos (by omega)]

theorem parseAddress_formatError (h : digits = [] ∨ digitsValue base 0 digits = none) :
    parseAddress tok = .error .formatError := by
  simp only [parseAddress, hparts]
  rcases h with h | h
  · rw [if_pos h]
  · simp [h]

end

/-- R110: the three bases and their letters in either case. -/
theorem base_of_literalSuffix {base : Nat} {suffix : Char}
    (h : (base, suffix) ∈ [(2, 'B'), (2, 'b'), (16, 'H'), (16, 'h'), (10, 'D'), (10, 'd')]) :
    base ∈ [2, 10, 16] ∧ baseOfSuffix suffix = some base := by
  simp only [List.mem_cons, Prod.mk.injEq, List.not_mem_nil, or_false] at h
  obtain ⟨rfl, rfl⟩ | ⟨rfl, rfl⟩ | ⟨rfl, rfl⟩ | ⟨rfl, rfl⟩ | ⟨rfl, rfl⟩ | ⟨rfl, rfl⟩ := h <;> decide

/-- Settles O54: the digits before the suffix, or all of them where there is none, decide. -/
theorem addressLiteralsAreRecovered : Obligations.AddressLiteralsAreRecovered := by
  intro base suffix hmem
  obtain ⟨hbase, hsuffix⟩ := base_of_literalSuffix hmem
  refine ⟨?_, fun cs hcs => ?_⟩
  · rintro ds _ _ hne hds rfl rfl
    have hvalue : ∀ {char : Nat → Char}, (∀ d < base, digitValue base (char d) = some d) →
        digitsValue base 0 (ds.map char) = some (ds.foldl (fun acc d => acc * base + d) 0) :=
      fun hchar => digitsValue_map 0 fun d hd => hchar d (hds d hd)
    have hlower := hvalue fun d hd => (digitValue_digitChar base hbase d hd).1
    have hupper := hvalue fun d hd => (digitValue_digitChar base hbase d hd).2
    refine ⟨parseAddress_of_value (literalParts_suffix hsuffix _) (by simpa) hlower,
      parseAddress_of_value (literalParts_suffix hsuffix _) (by simpa) hupper, ?_⟩
    rintro rfl
    exact parseAddress_of_value (literalParts_decimal hds) (by simpa) hlower
  · refine parseAddress_formatError (literalParts_suffix hsuffix cs) (hcs.imp_right ?_)
    rintro ⟨c, hc, hno⟩
    refine digitsValue_eq_none 0 ⟨c, hc, Option.eq_none_iff_forall_ne_some.2 fun v hv => ?_⟩
    have hle : base ≤ 16 := (by decide : ∀ b ∈ [2, 10, 16], b ≤ 16) base hbase
    obtain ⟨hlt, hchar⟩ := eq_digitChar_of_digitValue hle hv
    exact hchar.elim (hno v hlt).1 (hno v hlt).2

end Sys2Proof.Machine
end

section
/-! Proofs of the statements about the stages (40_stage_machine.md R141 to R148, R150): what the step of each stage
does, and what it reaches. -/

namespace Sys2Proof

/-- R145, R147: a word that decodes to an instruction has its mnemonic in the latch triple, and the mnemonic with the
operand nibble gives the instruction back. -/
theorem parts_of_decodeIn {p : Params} {w : Byte} {i : Instr} (h : decodeIn p w = .ok i) :
    parseWith (mnemonicOfIn p) w = some ⟨i.mnemonic, opcodeField w, operandField w⟩ ∧
    Instr.ofPartsIn p i.mnemonic (operandField w) = i := by
  unfold decodeIn at h
  split at h
  · rename_i m hm
    obtain rfl := Except.ok.inj h
    simp [parseWith, hm]
  · cases h

/-- R146: a map that leaves an opcode out has no mnemonic for it. -/
theorem mnemonicOfIn_eq_none {p : Params} {op : Nibble} (h : ∀ m, p.opcodeMap m ≠ op) : mnemonicOfIn p op = none :=
  List.find?_eq_none.2 fun m _ => by simpa using h m

namespace Machine

/-! ### The step of each stage -/

theorem StepShape.step_eq {s t : State} (h : StepShape Config.params s t) : step s = .next t := by
  rw [← stepIn_params, h.stepIn_eq]

/-- Settles O6: a step in FETCH, and the read of a 4-bit address. -/
theorem fetchReadsTheWordAtPc : Obligations.FetchReadsTheWordAtPc := fun s hs =>
  ⟨(StepShape.fetch (.inr hs)).step_eq, by rw [memRead_addr]⟩

/-- Settles O8: under the default map every word has its latch triple. -/
theorem decodeFillsTheLatch : Obligations.DecodeFillsTheLatch := by
  intro s hs
  obtain ⟨m, hparse, -, hop⟩ := parse_some params_wellFormed s.ir
  exact ⟨m, hop, (StepShape.decode hs _ hparse).step_eq⟩

theorem doDecodeWith_of_none {look : Nibble → Option Mnemonic} {s : State} (h : look (opcodeField s.ir) = none) :
    doDecodeWith look s = raiseInvalidInstruction s := by
  simp [doDecodeWith, parseWith, h]

/-- Settles O9: without a triple DECODE raises the fault, and a map without the opcode gives no triple. -/
theorem decodeFailureHaltsWithTheFaultBit : Obligations.DecodeFailureHaltsWithTheFaultBit := by
  refine ⟨fun look s h => doDecodeWith_of_none h, fun p s hs h => ?_⟩
  rw [stepIn_decode p hs, doDecodeIn, doDecodeWith_of_none (mnemonicOfIn_eq_none h)]
  rfl

/-- Settles O10, by the step of the HALT stage. -/
theorem haltStageChangesNothing : Obligations.HaltStageChangesNothing := fun s hs =>
  ⟨step_halt hs, cpuReset_stage s⟩

/-- R148: a halted state is a fixed point. -/
theorem step_of_halted {s : State} (hs : s.stage = .halt) (hmore : s.more = false) : step s = .next s := by
  rw [step_halt hs, doHalt, ← hmore]

/-- Settles O11, by induction on the number of steps. -/
theorem haltedForAnyNumberOfSteps : Obligations.HaltedForAnyNumberOfSteps := by
  intro k s hs hmore
  induction k with
  | zero => exact core_run_zero s
  | succ k ih => rw [core_run_next k (step_of_halted hs hmore), ih]

/-! ### The instruction that EXECUTE runs -/

/-- R33, R147: while the latch is decode(ir), the latched instruction is the one that IR decodes to. -/
theorem latchedInstrIn_of_decodeIn {p : Params} {s : State} {i : Instr}
    (hdec : s.dec = parseWith (mnemonicOfIn p) s.ir) (hi : decodeIn p s.ir = .ok i) : latchedInstrIn p s = some i := by
  obtain ⟨hparse, hparts⟩ := parts_of_decodeIn hi
  simp [latchedInstrIn, hdec, hparse, hparts]

/-- Settles O4: in EXECUTE the invariant has the word at PC in IR and its triple in the latch. -/
theorem executeStepRunsTheWordAtPc : Obligations.ExecuteStepRunsTheWordAtPc := by
  intro s i hinv hs hi
  obtain ⟨-, hir⟩ := hinv.executeStage hs
  exact step_execute hs (latchedInstrIn_of_decodeIn (hinv.latch hs) (by rwa [hir]))

/-- Settles O5: the steps of FETCH and DECODE, and then the latch holds the triple of the word fetched. -/
theorem threeStepsRunTheWordAtPc : Obligations.ThreeStepsRunTheWordAtPc := by
  intro s i hs hi
  obtain ⟨hparse, -⟩ := parts_of_decodeIn hi
  have hdecode := (StepShape.decode (s := doFetchFrom (s.mem.read s.pc.toNat) s) rfl _ hparse).step_eq
  refine ⟨_, _, (StepShape.fetch hs).step_eq, hdecode, rfl, rfl, ?_⟩
  exact step_execute rfl (latchedInstrIn_of_decodeIn hparse.symm hi)

/-! ### What steps reach -/

/-- R141: no step ends in IDLE. -/
theorem StepShape.stage_ne_idle {p : Params} {s t : State} (h : StepShape p s t) : t.stage ≠ .idle := by
  cases h with
  | fetch hs | decode hs => exact nofun
  | execute hs i hi q hq =>
    obtain ⟨hstage, -⟩ | ⟨hstage, -⟩ := endIn_stage p i (dataPath i s) q <;> simp [hstage]
  | halt hs => simp [hs]

/-- Settles O7: IDLE and FETCH perform the same stage, and the invariant describes IDLE. -/
theorem idleIsFetchAndIsNeverEntered : Obligations.IdleIsFetchAndIsNeverEntered :=
  ⟨fun s hs => (step_idle hs).trans (step_fetch (s := { s with stage := .fetch }) rfl).symm,
   fun _ hinv hs => hinv.idleStage hs,
   fun _ _ h => (step_shape h).stage_ne_idle⟩

/-- Settles O16, by the next states that a step can have. -/
theorem onlyExecuteChangesProgramState : Obligations.OnlyExecuteChangesProgramState := by
  intro s t hne h
  cases step_shape h with
  | fetch hs | decode hs | halt hs =>
    exact ⟨fun r _ => by cases r <;> rfl, rfl, ⟨rfl, rfl, rfl⟩, rfl, fun _ _ => rfl⟩
  | execute hs => exact absurd hs hne

@[simp] theorem endIn_ar (p : Params) (i : Instr) (s : State) (q : Addr) : (endIn p i s q).ar = s.ar := by
  cases i <;> rfl

/-- R143: the data path of an instruction puts its operand address in AR exactly where it makes an access. -/
theorem dataPath_ar (i : Instr) (s : State) : (dataPath i s).ar = (instrRequest i s).addr.getD s.ar := by
  cases i with
  | add r q | sub r q => simp [dataPath, aluOperands_eq, instrRequest, BusRequest.addr]
  | _ => rfl

/-- Settles O19, by the next states that a step can have. -/
theorem addressRegisterFollowsTheBus : Obligations.AddressRegisterFollowsTheBus := by
  intro s t h
  cases step_shape h with
  | fetch hs =>
    rw [busRequest_fetch hs]
    rfl
  | decode hs | halt hs => simp [busRequest, busRequestIn, hs, BusRequest.addr]
  | execute hs i hi q hq => rw [busRequest_execute hs hi, endIn_ar, dataPath_ar]

end Machine

end Sys2Proof
end

section
/-! Proofs of the statements about the transition relation (40_stage_machine.md R140, R149): every step completes, and
the stage and the result after it are those of the table. -/

namespace Sys2Proof.Machine

/-! ### Every step completes -/

/-- R26, R204, R205: under wrap and nop every instruction has a value for PC. -/
theorem pcAfterIn_next {p : Params} (hpc : p.pcIncAt15 = .wrap) (hmode : p.reservedJumpMode = .nop) (i : Instr)
    (s : State) : ∃ q, pcAfterIn p i s = .next q := by
  have hnext : pcNextIn p s = .next (s.pc + 1) := by simp [pcNextIn, hpc]
  cases i with
  | jump x | halt u => exact ⟨_, rfl⟩
  | jumpNeg x => cases hn : s.n <;> simp [pcAfterIn, hn, hnext]
  | jumpZro x => cases hz : s.z <;> simp [pcAfterIn, hz, hnext]
  | jumpAbv x | jumpBlw x => exact ⟨_, (if_pos hmode).trans hnext⟩
  | _ => exact ⟨_, hnext⟩

/-- R33, R99: in EXECUTE the latch holds an instruction. -/
theorem MachineInvIn.exists_latchedInstrIn {p : Params} {s : State} (hp : p.wellFormed = true)
    (hinv : MachineInvIn p s) (hs : s.stage = .execute) : ∃ i, latchedInstrIn p s = some i := by
  obtain ⟨i, hi⟩ := decodeIn_total hp s.ir
  exact ⟨i, latchedInstrIn_of_decodeIn (hinv.latch hs) hi⟩

theorem MachineInvIn.stepIn_completes {p : Params} {s : State} (hp : p.wellFormed = true)
    (hpc : p.pcIncAt15 = .wrap) (hmode : p.reservedJumpMode = .nop) (hinv : MachineInvIn p s) :
    Completes (stepIn p s) := by
  cases hs : s.stage with
  | idle => exact ⟨_, stepIn_idle p hs⟩
  | fetch => exact ⟨_, stepIn_fetch p hs⟩
  | decode => exact ⟨_, stepIn_decode p hs⟩
  | execute =>
    obtain ⟨i, hi⟩ := hinv.exists_latchedInstrIn hp hs
    obtain ⟨q, hq⟩ := pcAfterIn_next hpc hmode i s
    exact ⟨_, (StepShape.execute hs i hi q hq).stepIn_eq⟩
  | halt => exact ⟨_, stepIn_halt p hs⟩

theorem MachineInvIn.step_completes {s : State} (hinv : MachineInv s) : Completes (step s) := by
  rw [← stepIn_params]
  exact hinv.stepIn_completes params_wellFormed rfl rfl

/-- Settles O13: the latch of an EXECUTE step holds an instruction, which has a value for PC. -/
theorem everyStepCompletes : Obligations.EveryStepCompletes :=
  ⟨fun _ _ hp hpc hmode hinv => hinv.stepIn_completes hp hpc hmode, fun _ hinv => hinv.step_completes⟩

/-! ### The transition table -/

/-- R149: the stage after a step, row by row of the table, the row of a word without a mnemonic apart. -/
def stageAfterIn (p : Params) (s : State) : Stage :=
  match s.stage with
  | .idle | .fetch => .decode
  | .decode => .execute
  | .execute => if opcodeField s.ir = p.opcodeMap .halt then .halt else .fetch
  | .halt => .halt

/-- R147, R220: only HALT ends in the HALT stage. -/
theorem endIn_stage_eq (p : Params) (i : Instr) (s : State) (q : Addr) :
    (endIn p i s q).stage = if i.mnemonic = .halt then .halt else .fetch := by
  cases i <;> rfl

/-- R33, R145: in EXECUTE the opcode in IR is that of the latched instruction. -/
theorem MachineInvIn.opcodeMap_latched {p : Params} {s : State} {i : Instr} (hp : p.wellFormed = true)
    (hinv : MachineInvIn p s) (hs : s.stage = .execute) (hi : latchedInstrIn p s = some i) :
    p.opcodeMap i.mnemonic = opcodeField s.ir := by
  obtain ⟨m, hparse, -, hop⟩ := parse_some hp s.ir
  obtain rfl : Instr.ofPartsIn p m (operandField s.ir) = i := by
    simpa [latchedInstrIn, hinv.latch hs, hparse] using hi
  rw [ofPartsIn_mnemonic, hop]

theorem StepShape.stage_eq {p : Params} {s t : State} (hp : p.wellFormed = true) (hinv : MachineInvIn p s)
    (h : StepShape p s t) : t.stage = stageAfterIn p s := by
  cases h with
  | fetch hs => rcases hs with hs | hs <;> simp [stageAfterIn, hs]
  | decode hs | halt hs => simp [stageAfterIn, hs]
  | execute hs i hi q hq =>
    have hop := hinv.opcodeMap_latched hp hs hi
    simp [stageAfterIn, hs, endIn_stage_eq, ← hop, (Params.opcodeMap_injective hp).eq_iff]

/-- R149: the result of a step is false in the rows that lead to HALT and true in the others. -/
theorem MachineInvIn.more_eq {p : Params} {s : State} (hinv : MachineInvIn p s) :
    s.more = decide (s.stage ≠ .halt) := by
  simp [← hinv.more]

/-- Settles O12: the stage is the table's, and the result goes with it by the invariant of the next state. -/
theorem stageTransitionsAreExactlyTheTable : Obligations.StageTransitionsAreExactlyTheTable := by
  refine ⟨fun s hinv => ?_, fun look s h => by simp [doDecodeWith_of_none h], cpuReset_stage⟩
  obtain ⟨t, ht⟩ := hinv.step_completes
  have hstage := (step_shape ht).stage_eq params_wellFormed hinv
  have hmore := (stepKeepsTheMachineInvariant.2 s t hinv ht).more_eq
  rw [hstage] at hmore
  refine ⟨t, ht, fun hs => ?_, fun hs => ?_, fun hs => ?_, fun hs hop => ?_, fun hs hop => ?_, fun hs => ?_⟩ <;>
    simp [*, stageAfterIn]

end Sys2Proof.Machine
end

section
/-! Proofs of the statement about runs (40_stage_machine.md R151, 70_reset_and_hazards.md R270). -/

namespace Sys2Proof.Machine

/-! ### One step of a run -/

section
variable {s t : State} (h : step s = .next t)
include h

theorem run_nil : run [] s = .next (runEnd t, t) := by
  simp [run, runIn, h]

/-- R151: where the step returns true, the next flag decides whether the run goes on. -/
theorem run_cons_of_more (hmore : t.more = true) (cancel : Bool) (flags : List Bool) :
    run (cancel :: flags) s = if cancel then .next (.cancelled, t) else run flags t := by
  simp [run, runIn, h, hmore]

/-- R151: where the step returns false, the run ends, whatever the flags. -/
theorem run_of_not_more (hmore : t.more = false) (flags : List Bool) : run flags s = .next (runEnd t, t) := by
  cases flags with
  | nil => exact run_nil h
  | cons cancel flags => simp [run, runIn, h, hmore]

end

/-! ### The trace of a run -/

/-- R151, R270: how a run that made k + 1 steps and stopped at `t` stands, by the last step and the flag after it. -/
def RunStands (flags : List Bool) (e : RunEnd) (k : Nat) (t : State) : Prop :=
  e = .halted ∧ t.more = false ∨
  e = .cancelled ∧ t.more = true ∧ flags[k]? = some true ∨
  e = .running ∧ t.more = true ∧ k = flags.length

/-- The three ways to stand exclude each other. -/
theorem RunStands.iffs {flags : List Bool} {e : RunEnd} {k : Nat} {t : State} (h : RunStands flags e k t) :
    (e = .halted ↔ t.more = false) ∧ (e = .cancelled ↔ t.more = true ∧ flags[k]? = some true) ∧
    (e = .running ↔ t.more = true ∧ k = flags.length) ∧ e ≠ .faulted := by
  obtain ⟨rfl, hmore⟩ | ⟨rfl, hmore, hflag⟩ | ⟨rfl, hmore, rfl⟩ := h
  · simp [hmore]
  · have hlt : k < flags.length := (List.getElem?_eq_some_iff.1 hflag).1
    simp [hmore, hflag, hlt.ne]
  · simp [hmore]

/-- A run from `s` under `flags` that makes k + 1 steps: all but the last return true with a false flag after them, and
the last is made from a state that meets the invariant. -/
structure RunTrace (flags : List Bool) (s : State) (e : RunEnd) (k : Nat) (t : State) : Prop where
  ends : run flags s = .next (e, t)
  inWindow : k ≤ flags.length
  steps : core.run (k + 1) s = .next t
  goesOn : ∀ j, j < k → flags[j]? = some false ∧ ∃ u : State, core.run (j + 1) s = .next u ∧ u.more = true
  stands : RunStands flags e k t
  last : ∃ u, MachineInv u ∧ step u = .next t

section
variable {flags : List Bool} {s t : State} {e : RunEnd}

theorem RunTrace.single (hinv : MachineInv s) (h : step s = .next t) (hends : run flags s = .next (e, t))
    (hstands : RunStands flags e 0 t) : RunTrace flags s e 0 t where
  ends := hends
  inWindow := Nat.zero_le _
  steps := core_run_next 0 h
  goesOn := nofun
  stands := hstands
  last := ⟨s, hinv, h⟩

theorem RunTrace.halted (hinv : MachineInv s) (h : step s = .next t) (hmore : t.more = false) :
    RunTrace flags s .halted 0 t := by
  have hfault : t.fault = false := (stepKeepsTheMachineInvariant.2 s t hinv h).noFault
  refine .single hinv h ?_ (.inl ⟨rfl, hmore⟩)
  simp [run_of_not_more h hmore, runEnd, hmore, hfault]

theorem RunTrace.running (hinv : MachineInv s) (h : step s = .next t) (hmore : t.more = true) :
    RunTrace [] s .running 0 t :=
  .single hinv h (by rw [run_nil h, runEnd, if_pos hmore]) (.inr (.inr ⟨rfl, hmore, rfl⟩))

theorem RunTrace.cancelled (hinv : MachineInv s) (h : step s = .next t) (hmore : t.more = true) :
    RunTrace (true :: flags) s .cancelled 0 t :=
  .single hinv h (run_cons_of_more h hmore true flags) (.inr (.inl ⟨rfl, hmore, rfl⟩))

theorem RunTrace.cons {u : State} {k : Nat} (h : step s = .next u) (hmore : u.more = true)
    (htrace : RunTrace flags u e k t) : RunTrace (false :: flags) s e (k + 1) t where
  ends := (run_cons_of_more h hmore false flags).trans htrace.ends
  inWindow := Nat.succ_le_succ htrace.inWindow
  steps := (core_run_next (k + 1) h).trans htrace.steps
  goesOn j hj := by
    cases j with
    | zero => exact ⟨rfl, u, core_run_next 0 h, hmore⟩
    | succ j => simpa [core_run_next (j + 1) h] using htrace.goesOn j (Nat.lt_of_succ_lt_succ hj)
  stands := by simpa [RunStands] using htrace.stands
  last := htrace.last

/-- R151: from a state that meets the invariant every run has a trace, since every step completes and keeps the
invariant. -/
theorem exists_runTrace (flags : List Bool) {s : State} (hinv : MachineInv s) : ∃ e k t, RunTrace flags s e k t := by
  induction flags generalizing s with
  | nil =>
    obtain ⟨t, h⟩ := hinv.step_completes
    cases hmore : t.more with
    | false => exact ⟨_, _, t, .halted hinv h hmore⟩
    | true => exact ⟨_, _, t, .running hinv h hmore⟩
  | cons cancel flags ih =>
    obtain ⟨t, h⟩ := hinv.step_completes
    cases hmore : t.more with
    | false => exact ⟨_, _, t, .halted hinv h hmore⟩
    | true =>
      cases cancel with
      | true => exact ⟨_, _, t, .cancelled hinv h hmore⟩
      | false =>
        obtain ⟨e, k, u, htrace⟩ := ih (stepKeepsTheMachineInvariant.2 s t hinv h)
        exact ⟨e, k + 1, u, htrace.cons h hmore⟩

end

/-- Settles O52: the recursion of `run`, and the trace that every run from the invariant has. -/
theorem runsEndExactlyWhenTheStageIsHalt : Obligations.RunsEndExactlyWhenTheStageIsHalt := by
  refine ⟨fun s t h => ⟨fun hmore => ⟨?_, fun flags => ?_⟩, fun hmore flags => ?_⟩, fun flags s hinv => ?_⟩
  · rw [run_nil h, runEnd, if_pos hmore]
  · simp [run_cons_of_more h hmore]
  · simp [run_of_not_more h hmore, runEnd, hmore]
  obtain ⟨e, k, t, htrace⟩ := exists_runTrace flags hinv
  obtain ⟨u, hu, hstep⟩ := htrace.last
  have ht : MachineInv t := stepKeepsTheMachineInvariant.2 u t hu hstep
  have hidle : t.stage ≠ .idle := (step_shape hstep).stage_ne_idle
  obtain ⟨hhalted, hcancelled, hrunning, hfaulted⟩ := htrace.stands.iffs
  refine ⟨e, k, t, htrace.ends, htrace.inWindow, htrace.steps, htrace.goesOn, hhalted, hcancelled, hrunning, hfaulted,
    fun hmore => ⟨ht.more.1 hmore, ht.noFault⟩, fun hmore => ?_⟩
  have hhalt : t.stage ≠ .halt := by simpa [ht.more_eq] using hmore
  revert hidle hhalt
  cases t.stage <;> decide

end Sys2Proof.Machine
end

section
/-! Proofs of the statements about LOAD and STORE (41_load_store.md R170 to R177): what each answers in every state, and
from that its effect and its frame. -/

namespace Sys2Proof.Machine

/-! ### LOAD (R170 to R173) -/

/-- R170 to R173, R147: at the defaults a LOAD completes, with the byte in its register, AR and PC set, and the stage ended. -/
theorem exec_load {i : Instr} {r : Reg} {x : Addr} (s : State)
    (h : (i, r) ∈ [(Instr.loadA x, Reg.a), (.loadB x, .b), (.loadC x, .c), (.loadD x, .d)]) :
    exec i s = .next
      (setReg r (s.mem.read x.toNat) (retireIn Config.params { s with ar := x, pc := s.pc + 1 })) := by
  rw [← execIn_params, execIn_eq, dataPath_load s h, loadOperand_eq]
  simp only [List.mem_cons, Prod.mk.injEq, List.not_mem_nil, or_false] at h
  obtain ⟨rfl, rfl⟩ | ⟨rfl, rfl⟩ | ⟨rfl, rfl⟩ | ⟨rfl, rfl⟩ := h <;> rfl

/-- Settles O24: what a LOAD answers, read at each of the four registers. -/
theorem loadCopiesTheByteToItsRegister : Obligations.LoadCopiesTheByteToItsRegister := fun x s =>
  ⟨exec_load (r := .a) (x := x) s (by simp), exec_load (r := .b) (x := x) s (by simp),
   exec_load (r := .c) (x := x) s (by simp), exec_load (r := .d) (x := x) s (by simp)⟩

/-- Settles O25: what a LOAD answers has a new byte in its register, a new AR and the end of the step, and no more. -/
theorem loadLeavesEverythingElse : Obligations.LoadLeavesEverythingElse := by
  intro i r x s t hi h
  rw [exec_load s hi] at h
  obtain rfl := Host.Outcome.next.inj h
  refine ⟨fun q hq => ?_, by simp [FlagsKept], by simp [HiddenKept], fun addr _ => by simp⟩
  have hne : q ≠ r := by simpa using hq
  rw [getReg_setReg, if_neg hne, getReg_retireIn]
  cases q <;> rfl

/-! ### STORE (R174 to R177) -/

/-- Settles O26: a STORE's data path writes one cell and AR, and the end of the step PC, the counter and the stage. -/
theorem storeCopiesItsRegisterToTheByte : Obligations.StoreCopiesItsRegisterToTheByte := by
  intro i r x s hm hi
  refine ⟨s.mem.write x.toNat (getReg r s), Memory.wf_write hm _ x.isLt, Memory.read_write_same hm _ _,
    fun addr hne => Memory.read_write_other _ _ _ _ hne, ?_⟩
  rw [exec_store s hi, storeOperand_eq]
  rfl

/-- R174 to R177: every STORE has a register whose byte it stores. -/
theorem exists_storeReg {i : Instr} {x : Addr} (h : i ∈ [Instr.storeA x, .storeB x, .storeC x, .storeD x]) :
    ∃ r, (i, r) ∈ [(Instr.storeA x, Reg.a), (.storeB x, .b), (.storeC x, .c), (.storeD x, .d)] := by
  simp only [List.mem_cons, List.not_mem_nil, or_false] at h
  obtain rfl | rfl | rfl | rfl := h <;> simp

/-- Settles O27: what a STORE answers has a new byte in one cell, a new AR and the end of the step, and no more. -/
theorem storeLeavesEverythingElse : Obligations.StoreLeavesEverythingElse := by
  intro i x s t hi h
  obtain ⟨r, hr⟩ := exists_storeReg hi
  rw [exec_store s hr, storeOperand_eq] at h
  obtain rfl := Host.Outcome.next.inj h
  refine ⟨fun q _ => ?_, by simp [FlagsKept], by simp [HiddenKept], fun addr hne => ?_⟩
  · rw [getReg_retireIn]
    cases q <;> rfl
  · exact Memory.read_write_other _ _ _ _ (by simpa using hne)

end Sys2Proof.Machine
end

section
/-! Proofs of the statements about the ALU and about ADD and SUB (42_arithmetic.md R180 to R185): the result byte reads
as the corrected value, the flags are functions of operands and result, and both instructions write just these. -/

namespace Sys2Proof.Machine

/-! ### The ALU (R181, R182) -/

/-- R181: one correction by 256 is enough for the values the ALU can reach, so it is the balanced remainder. -/
theorem aluWrap_eq_bmod {t : Int} (h : -256 ≤ t ∧ t ≤ 255) : aluWrap t = t.bmod 256 := by
  rw [aluWrap, Int.bmod_def]
  split
  · omega
  · split <;> omega

section
variable (op : AluOp) (p q : Byte)

/-- R181, R16: the result byte is the corrected value masked to 8 bits. -/
theorem alu_r_eq_maskByte : (alu op p q).r = maskByte (aluWrap (aluExact op p q)) := rfl

/-- R181: masking to 8 bits loses nothing of the corrected value. -/
theorem alu_r_toInt : (alu op p q).r.toInt = aluWrap (aluExact op p q) := by
  obtain ⟨hlow, hhigh⟩ := aluWrap_bounds (aluExact_bounds op p q)
  rw [alu_r_eq_maskByte]
  calc (maskByte (aluWrap (aluExact op p q))).toInt
      = (aluWrap (aluExact op p q) % 256).bmod 256 := BitVec.toInt_ofInt _
    _ = (aluWrap (aluExact op p q)).bmod 256 := Int.emod_bmod _ 256
    _ = aluWrap (aluExact op p q) := Int.bmod_eq_of_le (by omega) (by omega)

theorem alu_r_toInt_eq_bmod : (alu op p q).r.toInt = (aluExact op p q).bmod 256 := by
  rw [alu_r_toInt, aluWrap_eq_bmod (aluExact_bounds op p q)]

theorem alu_r_add : (alu .add p q).r = p + q := by
  rw [← BitVec.toInt_inj, alu_r_toInt_eq_bmod, BitVec.toInt_add, aluExact, s8_eq_toInt, s8_eq_toInt]

theorem alu_r_sub : (alu .sub p q).r = p - q := by
  rw [← BitVec.toInt_inj, alu_r_toInt_eq_bmod, BitVec.toInt_sub, aluExact, s8_eq_toInt, s8_eq_toInt]

theorem alu_v_eq_true_iff : (alu op p q).v = true ↔ aluExact op p q < -128 ∨ aluExact op p q > 127 := by simp [alu]

/-- R182: V of ADD is signed overflow: the operands' signs agree and the sum's differs. -/
theorem alu_v_add : (alu .add p q).v = ((p.msb == q.msb) && ((p + q).msb != p.msb)) := by
  have hover : (alu .add p q).v = p.saddOverflow q := by
    rw [Bool.eq_iff_iff, alu_v_eq_true_iff, aluExact, s8_eq_toInt, s8_eq_toInt]
    simp only [BitVec.saddOverflow, Bool.or_eq_true, decide_eq_true_iff]
    omega
  exact hover.trans (BitVec.saddOverflow_eq p q)

/-- R182: V of SUB is signed overflow: the operands' signs differ and the difference's is not that of the first. -/
theorem alu_v_sub : (alu .sub p q).v = ((p.msb != q.msb) && ((p - q).msb != p.msb)) := by
  have hover : (alu .sub p q).v = p.ssubOverflow q := by
    rw [Bool.eq_iff_iff, alu_v_eq_true_iff, aluExact, s8_eq_toInt, s8_eq_toInt]
    simp only [BitVec.ssubOverflow, Bool.or_eq_true, decide_eq_true_iff]
    omega
  rw [hover, BitVec.ssubOverflow_eq]
  cases p.msb <;> cases q.msb <;> simp

/-- R182: Z and N read off the result byte what R181 reads off the corrected value. -/
theorem alu_z : (alu op p q).z = ((alu op p q).r == 0) := by
  have hzero : (alu op p q).r = 0 ↔ aluWrap (aluExact op p q) = 0 := by
    rw [← BitVec.toInt_inj, alu_r_toInt, BitVec.ofNat_eq_ofNat, BitVec.toInt_zero]
  rw [Bool.eq_iff_iff, beq_iff_eq, hzero]
  exact decide_eq_true_iff

theorem alu_n : (alu op p q).n = (alu op p q).r.msb := by
  rw [BitVec.msb_eq_toInt, alu_r_toInt]
  rfl

/-- R182: the closed form of ADD. -/
theorem alu_add :
    alu .add p q = ⟨p + q, (p.msb == q.msb) && ((p + q).msb != p.msb), p + q == 0, (p + q).msb⟩ := by
  rw [← alu_v_add, ← alu_r_add, ← alu_z, ← alu_n]

/-- R182: the closed form of SUB. -/
theorem alu_sub :
    alu .sub p q = ⟨p - q, (p.msb != q.msb) && ((p - q).msb != p.msb), p - q == 0, (p - q).msb⟩ := by
  rw [← alu_v_sub, ← alu_r_sub, ← alu_z, ← alu_n]

end

/-- Settles O29: the statement's exact and corrected values are the model's, and the result byte reads as the latter. -/
theorem aluFollowsTheSignedRule : Obligations.AluFollowsTheSignedRule := by
  intro op p q exact t hexact ht
  obtain rfl : exact = aluExact op p q := by
    cases op <;> simp only [hexact, aluExact, s8_eq_toInt]
  obtain rfl : t = aluWrap (aluExact op p q) := ht
  exact ⟨aluWrap_bounds (aluExact_bounds op p q), alu_v_eq_true_iff op p q, decide_eq_true_iff, decide_eq_true_iff,
    alu_r_eq_maskByte op p q ▸ maskByte_value _, alu_r_toInt op p q⟩

/-- Settles O30, by the closed forms of the two operations. -/
theorem aluHasItsClosedForms : Obligations.AluHasItsClosedForms := fun p q => ⟨alu_add p q, alu_sub p q⟩

/-! ### ADD and SUB (R183 to R185) -/

/-- R183 to R185, R147: at the defaults the ALU's data path is followed by the end of the step, with PC at the
successor. -/
theorem retireNextIn_aluOperands (op : AluOp) (r q : Reg) (s : State) :
    retireNextIn Config.params (aluOperands op r q s) =
      .next (retireIn Config.params { aluOperands op r q s with pc := s.pc + 1 }) := by
  rw [retireNextIn_wrap rfl, aluOperands_pc]

theorem exec_add (r q : Reg) (s : State) :
    exec (.add r q) s = .next (retireIn Config.params { aluOperands .add r q s with pc := s.pc + 1 }) :=
  retireNextIn_aluOperands .add r q s

theorem exec_sub (r q : Reg) (s : State) :
    exec (.sub r q) s = .next (retireIn Config.params { aluOperands .sub r q s with pc := s.pc + 1 }) :=
  retireNextIn_aluOperands .sub r q s

/-- Settles O31: what ADD answers, with the ALU's result in its closed form. -/
theorem addWritesSumAndFlags : Obligations.AddWritesSumAndFlags := by
  rintro r q s sum rfl
  rw [exec_add, aluOperands_eq, alu_add]
  cases r <;> rfl

/-- Settles O32: what SUB answers, with the ALU's result in its closed form. -/
theorem subWritesDifferenceAndFlags : Obligations.SubWritesDifferenceAndFlags := by
  rintro r q s diff rfl
  rw [exec_sub, aluOperands_eq, alu_sub]
  cases r <;> rfl

/-- R184, R185: what the two instructions answer, for whichever ALU operation it is. -/
theorem exec_arithmetic {i : Instr} {r q : Reg} (s : State) (h : i ∈ [Instr.add r q, .sub r q]) :
    ∃ op, exec i s = .next (retireIn Config.params { aluOperands op r q s with pc := s.pc + 1 }) := by
  simp only [List.mem_cons, List.not_mem_nil, or_false] at h
  obtain rfl | rfl := h
  · exact ⟨.add, exec_add r q s⟩
  · exact ⟨.sub, exec_sub r q s⟩

/-- Settles O33: what ADD or SUB answers has a new byte in reg1, new flags and the end of the step, and no more. -/
theorem arithmeticLeavesEverythingElse : Obligations.ArithmeticLeavesEverythingElse := by
  intro i r q s t hi h
  obtain ⟨op, hop⟩ := exec_arithmetic s hi
  rw [hop, aluOperands_eq] at h
  obtain rfl := Host.Outcome.next.inj h
  refine ⟨fun reg hreg => ?_, by simp, by simp [HiddenKept], fun addr _ => by simp⟩
  have hne : reg ≠ r := by simpa using hreg
  calc getReg reg _
      = getReg reg (setReg r (alu op (getReg r s) (getReg q s)).r s) := by cases reg <;> rfl
    _ = getReg reg s := by rw [getReg_setReg, if_neg hne]

end Sys2Proof.Machine
end

section
/-! Proofs of the statements about the jumps (43_control_transfer.md R200 to R205), with HALT in their frame (44_system.md
R220): what each jump answers in every state, and what the end of its step leaves unchanged. -/

namespace Sys2Proof.Machine

/-! ### The jumps (R201 to R205) -/

section
variable (x : Addr) (s : State)

/-- R147 at the defaults: the state that an EXECUTE step other than HALT's leaves with PC at `x`, field by field. -/
theorem retireIn_params_pc :
    retireIn Config.params { s with pc := x } =
      { s with pc := x, cycles := (s.cycles + 1) % 2 ^ 32, stage := .fetch, more := true } := rfl

theorem exec_jump : exec (.jump x) s = .next (retireIn Config.params { s with pc := x }) :=
  retireAtIn_eq Config.params x s

theorem exec_jumpNeg :
    exec (.jumpNeg x) s = .next (retireIn Config.params { s with pc := if s.n then x else s.pc + 1 }) :=
  jumpIfIn_wrap rfl s.n x s

theorem exec_jumpZro :
    exec (.jumpZro x) s = .next (retireIn Config.params { s with pc := if s.z then x else s.pc + 1 }) :=
  jumpIfIn_wrap rfl s.z x s

/-- R204, R205: at the defaults, nop and wrap, a reserved jump completes with PC at the successor. -/
theorem reservedJumpIn_params (m : Mnemonic) :
    reservedJumpIn Config.params m s = .next (retireIn Config.params { s with pc := s.pc + 1 }) := by
  rw [reservedJumpIn_nop rfl, retireNextIn_wrap rfl]

end

/-- Settles O34: what JUMP answers, field by field. -/
theorem jumpSetsPcToTheTarget : Obligations.JumpSetsPcToTheTarget := fun x s => by
  rw [exec_jump, retireIn_params_pc]

/-- Settles O35: what JUMP_NEG answers, at each value of N. -/
theorem jumpNegFollowsTheNegativeFlag : Obligations.JumpNegFollowsTheNegativeFlag := by
  intro x s
  rw [exec_jumpNeg, retireIn_params_pc]
  exact ⟨fun hn => by rw [hn, if_pos rfl], fun hn => by rw [hn, if_neg Bool.false_ne_true]⟩

/-- Settles O36: what JUMP_ZRO answers, at each value of Z. -/
theorem jumpZroFollowsTheZeroFlag : Obligations.JumpZroFollowsTheZeroFlag := by
  intro x s
  rw [exec_jumpZro, retireIn_params_pc]
  exact ⟨fun hz => by rw [hz, if_pos rfl], fun hz => by rw [hz, if_neg Bool.false_ne_true]⟩

/-- Settles O37: both are reserved jumps at the defaults. -/
theorem reservedJumpsOnlyAdvancePc : Obligations.ReservedJumpsOnlyAdvancePc := fun _ s =>
  ⟨reservedJumpIn_params s .jumpAbv, reservedJumpIn_params s .jumpBlw⟩

/-- Settles O38: both are reserved jumps under a mode that refuses them. -/
theorem refuseModeRefusesReservedJumps : Obligations.RefuseModeRefusesReservedJumps := fun _ _ s hmode =>
  ⟨reservedJumpIn_refuse hmode .jumpAbv s, reservedJumpIn_refuse hmode .jumpBlw s⟩

/-! ### The frame (R200, R220) -/

/-- R147, R200, R220: a jump or HALT has no data path, so its step is an end at the PC value it takes. -/
theorem exec_jump_or_halt {i : Instr} {x : Addr} {s t : State}
    (hi : i ∈ [Instr.jump x, .jumpNeg x, .jumpZro x, .jumpAbv x, .jumpBlw x, .halt x]) (h : exec i s = .next t) :
    ∃ q, t = endIn Config.params i s q := by
  have hpath : dataPath i s = s := by
    simp only [List.mem_cons, List.not_mem_nil, or_false] at hi
    obtain rfl | rfl | rfl | rfl | rfl | rfl := hi <;> rfl
  rw [← execIn_params, execIn_eq, hpath, mapNext_eq_next] at h
  obtain ⟨q, -, rfl⟩ := h
  exact ⟨q, rfl⟩

/-- Settles O40: the end of an EXECUTE step reaches PC, the counter, the stage and the last result, and no more. -/
theorem jumpsAndHaltLeaveEverythingElse : Obligations.JumpsAndHaltLeaveEverythingElse := by
  intro i x s t hi h
  obtain ⟨q, rfl⟩ := exec_jump_or_halt hi h
  exact ⟨fun r _ => getReg_endIn .., by simp [FlagsKept], endIn_ar .., by simp [HiddenKept], fun addr _ => by simp⟩

end Sys2Proof.Machine
end

section
/-! Proof of the statement about HALT (44_system.md R220): what it answers in every state. -/

namespace Sys2Proof.Machine

section
variable (s : State)

/-- R147, R220 at the defaults: the state that HALT's EXECUTE step leaves, field by field. -/
theorem retireHaltIn_params :
    retireHaltIn Config.params s = { s with cycles := (s.cycles + 1) % 2 ^ 32, stage := .halt, more := false } := rfl

/-- R220: HALT's step is its end alone; the operand nibble is not read. -/
theorem exec_halt (u : Nibble) : exec (.halt u) s = .next (retireHaltIn Config.params s) := rfl

end

/-- Settles O39: what HALT answers, field by field. -/
theorem haltStopsAndKeepsPc : Obligations.HaltStopsAndKeepsPc := fun u s => by
  rw [exec_halt, retireHaltIn_params]

end Sys2Proof.Machine
end

section
/-! Proofs of the statements about reset, the host's load and the run with nothing loaded (70_reset_and_hazards.md R260 to
R265). -/

namespace Sys2Proof.Machine

/-! ### CPU reset (R260, R261) -/

/-- R260, R261: under any parameters the invariant asks of a reset state only that its memory is canonical. -/
theorem machineInvIn_cpuReset (p : Params) {s : State} (hm : s.mem.wf = true) : MachineInvIn p (cpuReset s) where
  memory := hm
  decodeStage := nofun
  executeStage := nofun
  latch := nofun
  more := by simp
  noFault := rfl
  idleStage _ := rfl
  counter := Nat.two_pow_pos _

/-- Settles O15: the reset state is CPU reset of itself. -/
theorem resetEstablishesTheMachineInvariant : Obligations.ResetEstablishesTheMachineInvariant :=
  ⟨machineInvIn_cpuReset Config.params (s := State.reset) rfl, fun p _ hm => machineInvIn_cpuReset p hm⟩

/-- R42, R261: an edge that performs no step makes no access, so it only resets the core or leaves it alone. -/
theorem clockEdgeIn_no_step (p : Params) {rst req : Bool} (h : rst = true ∨ req = false) (s : State) :
    clockEdgeIn p rst req s = .next (if rst then cpuReset s else s) := by
  have hkept : (outputsIn p rst req s).memWdata = none := by
    simp [outputsIn, portRequestIn_no_step p h, BusRequest.data]
  simp only [clockEdgeIn, blockEdgeIn, hkept, memoryEdge]
  obtain rfl | rfl := h
  · rfl
  · cases rst <;> rfl

/-- Settles O48: the reset values are those of the definition, and only an edge with `step_req` alone performs a step. -/
theorem cpuResetGivesTheResetValues : Obligations.CpuResetGivesTheResetValues := fun s =>
  ⟨rfl, fun _ => clockEdgeIn_no_step _ (.inl rfl) s, (clockEdgeIn_step _ s).trans (stepIn_params s),
   clockEdgeIn_no_step _ (.inr rfl) s⟩

/-! ### Seeds (R264) -/

section
variable (m : Memory) (x v : Int)

/-- R62: a write signals a bounds fault exactly where its address is outside memory. -/
theorem memWrite_fault : (memWrite m x v).2 = if x < 0 ∨ 16 ≤ x then some ⟨x⟩ else none := by
  split
  · rename_i houtside
    rw [memWrite_outside m houtside]
  · rename_i hinside
    lift x to Nat using (by omega)
    rw [memWrite_inside m (by omega)]

/-- R62: after a write each cell holds the masked value if it was written to, and otherwise its old byte. -/
theorem read_memWrite (hm : m.wf = true) {addr : Nat} (h : addr < 16) :
    (memWrite m x v).1.read addr = if x = addr then maskByte v else m.read addr := by
  by_cases houtside : x < 0 ∨ 16 ≤ x
  · rw [memWrite_outside m houtside, if_neg (by omega)]
  lift x to Nat using (by omega)
  rw [memWrite_inside m (by omega)]
  split
  · rename_i hsame
    rw [← Int.ofNat_inj.1 hsame, Memory.read_write_same hm]
  · rename_i hother
    exact Memory.read_write_other m x addr _ (by omega)

end

/-- R264: one more seed is one more write. -/
theorem seed_concat (m : Memory) (seeds : List (Int × Int)) (q : Int × Int) :
    (seed m (seeds ++ [q])).1 = (memWrite (seed m seeds).1 q.1 q.2).1 := by
  induction seeds generalizing m with
  | nil => rfl
  | cons first rest ih => exact ih _

theorem wf_seed {m : Memory} (hm : m.wf = true) (seeds : List (Int × Int)) : (seed m seeds).1.wf = true := by
  induction seeds generalizing m with
  | nil => exact hm
  | cons first rest ih => exact ih (memWrite_wf hm first.1 first.2)

/-- R232, R264: the log holds the seeds outside memory in their order. -/
theorem seed_log (m : Memory) (seeds : List (Int × Int)) :
    (seed m seeds).2 = (seeds.filter fun q => decide (q.1 < 0 ∨ 16 ≤ q.1)).map fun q => ⟨q.1⟩ := by
  induction seeds generalizing m with
  | nil => rfl
  | cons first rest ih =>
    simp only [seed, ih, memWrite_fault, List.filter_cons, decide_eq_true_eq]
    split <;> rfl

/-- R264: after the seeds each cell holds the masked value of the last seed at its address, if there is one. -/
theorem read_seed {m : Memory} (hm : m.wf = true) (seeds : List (Int × Int)) {addr : Nat} (h : addr < 16) :
    (seed m seeds).1.read addr =
      (seeds.reverse.find? fun q => decide (q.1 = (addr : Int))).elim (m.read addr) fun q => maskByte q.2 := by
  induction seeds using List.reverseRecOn with
  | nil => rfl
  | append_singleton seeds last ih =>
    rw [seed_concat, read_memWrite _ _ _ (wf_seed hm seeds) h, ih, List.reverse_concat, List.find?_cons]
    by_cases hlast : last.1 = addr <;> simp [hlast]

/-- Settles O50: the last seed is a write over what the earlier ones left. -/
theorem laterSeedsOverrideEarlierOnes : Obligations.LaterSeedsOverrideEarlierOnes := by
  intro m seeds addr v hm h
  rw [seed_concat, memWrite_inside _ h]
  refine ⟨?_, fun other hne => Memory.read_write_other _ addr other _ hne⟩
  rw [Memory.read_write_same (wf_seed hm seeds), maskByte_value]

/-! ### The host's load (R263) -/

/-- R263: text that assembles has its bytes as words. -/
theorem wordsIn_text_of_ok {cs : List Char} {ws : List Byte} (h : assemble cs = .ok ws) :
    (Source.text cs).wordsIn Config.params = .ok (ws.map fun w => (w.toNat : Int)) := congrArg (Except.map _) h

theorem wordsIn_text_of_error {cs : List Char} {errors : AssemblyError} (h : assemble cs = .error errors) :
    (Source.text cs).wordsIn Config.params = .error errors := congrArg (Except.map _) h

section
variable {src : Source} (seeds : List (Int × Int)) (s : State)

/-- R263: a source with words is loaded: the core is reset, memory cleared and filled, and then the seeds are written. -/
theorem hostLoad_of_words {ws : List Int} (h : src.wordsIn Config.params = .ok ws) :
    hostLoad src seeds s =
      .loaded { State.reset with mem := (seed (Memory.reset.load ws) seeds).1 }
        (seed (Memory.reset.load ws) seeds).2 := by
  rw [hostLoad, hostLoadIn, h]
  rfl

/-- R263, R267: a source that does not assemble gives its errors and no state. -/
theorem hostLoad_of_errors {errors : AssemblyError} (h : src.wordsIn Config.params = .error errors) :
    hostLoad src seeds s = .assemblyError errors := by
  rw [hostLoad, hostLoadIn, h]

end

/-- Settles O49: the seeds are written over memory that was cleared and filled, which is canonical. -/
theorem hostLoadResetsThenCopies : Obligations.HostLoadResetsThenCopies := by
  refine ⟨fun ws seeds s => ?_, fun cs ws seeds s h => ?words, fun cs errors seeds s h => ?errors⟩
  case words =>
    rw [hostLoad_of_words seeds s (wordsIn_text_of_ok h), hostLoad_of_words seeds s rfl]
  case errors => exact hostLoad_of_errors seeds s (wordsIn_text_of_error h)
  have hload : (Memory.reset.load ws).wf = true := Memory.wf_load Memory.reset ws
  refine ⟨_, by rw [hostLoad_of_words seeds s rfl, seed_log], rfl, wf_seed hload seeds, fun addr h => ?_⟩
  rw [read_seed hload seeds h]
  cases seeds.reverse.find? fun q => decide (q.1 = (addr : Int)) with
  | some q => exact maskByte_value q.2
  | none => exact memoryLoadClearsThenCopies Memory.reset ws addr h

/-! ### The run with nothing loaded (R265) -/

/-- A run that reaches a state goes on from there. -/
theorem core_run_add {k : Nat} {s t : State} (h : core.run k s = .next t) (n : Nat) :
    core.run (k + n) s = core.run n t := by
  induction k generalizing s with
  | zero =>
    obtain rfl : s = t := Host.Outcome.next.inj h
    rw [Nat.zero_add]
  | succ k ih =>
    cases hstep : step s with
    | next u =>
      rw [core_run_next k hstep] at h
      rw [Nat.succ_add, core_run_next _ hstep, ih h]
    | fault r => simp [Host.Core.run, core, hstep] at h
    | refused r => simp [Host.Core.run, core, hstep] at h

/-- R265: memory is all zero, the core is about to fetch, and k instructions LOAD_A 0 were executed since reset. -/
structure RanLoadAZero (k : Nat) (s : State) : Prop where
  stage : s.stage = .idle ∨ s.stage = .fetch
  pc : s.pc.toNat = k % 16
  cycles : s.cycles = k % 2 ^ 32
  a : s.a = 0x00
  mem : s.mem = []

/-- R265, R170: three steps fetch, decode and execute the word 0x00, which is LOAD_A 0. -/
theorem RanLoadAZero.three_steps {k : Nat} {s : State} (h : RanLoadAZero k s) :
    ∃ t, core.run 3 s = .next t ∧ t.stage = .fetch ∧ RanLoadAZero (k + 1) t := by
  have hword : decode (s.mem.read s.pc.toNat) = .ok (.loadA 0) := by
    rw [h.mem, Memory.read_nil]
    decide
  obtain ⟨s1, s2, h1, h2, -, hs2, h3⟩ := threeStepsRunTheWordAtPc s _ h.stage hword
  rw [exec_load (r := .a) (x := 0) s2 (by simp)] at h3
  refine ⟨_, ((core_run_next 2 h1).trans (core_run_next 1 h2)).trans (core_run_next 0 h3), rfl, ?_⟩
  subst hs2
  constructor
  case stage => exact .inr rfl
  case pc => simp [BitVec.toNat_add, h.pc]
  case cycles => simp [nextCycles, h.cycles]
  case a => simp [h.mem]
  case mem => exact h.mem

/-- Settles O53: by induction on the number of instructions, three steps at a time. -/
theorem emptyMemoryNeverHalts : Obligations.EmptyMemoryNeverHalts := by
  have hran : ∀ k, ∃ t, core.run (3 * (k + 1)) State.reset = .next t ∧ t.stage = .fetch ∧ RanLoadAZero (k + 1) t := by
    intro k
    induction k with
    | zero => exact RanLoadAZero.three_steps ⟨.inl rfl, rfl, rfl, rfl, rfl⟩
    | succ k ih =>
      obtain ⟨t, hrun, -, ht⟩ := ih
      rw [Nat.mul_succ 3 (k + 1), core_run_add hrun 3]
      exact ht.three_steps
  intro k
  obtain ⟨t, hrun, hstage, ht⟩ := hran k
  exact ⟨t, hrun, hstage, ht.pc, ht.cycles, ht.a, fun addr => by rw [ht.mem, Memory.read_nil]⟩

end Sys2Proof.Machine
end
